-- ==== Sys2Proof/Word.lean ====
section
/-! DEFINITION. The two word types of the block: a 32-bit register (spec 10_state R21) and an
8-bit byte of a memory (20_memory R50, R53). All values are unsigned (00_scope R10). -/

namespace Sys2Proof

/-- A host-visible register (10_state R21): 32 bits, read and written whole. -/
abbrev Word := BitVec 32

/-- One cell of `PIX`, one byte of `MIN` or `MOUT` (20_memory R50): 8 unsigned bits. -/
abbrev Byte := BitVec 8

end Sys2Proof
end

