-- ==== Sys2Proof/Syntax.lean ====
section
/-! DEFINITION. The commands of the block, one constructor per row of spec/opcode_table.json
(30_encoding R72). A command word has no operand fields (R71, R75), so the constructors have no
arguments. -/

namespace Sys2Proof

/-- The two commands (30_encoding R72). Their operands are in the registers and memories (R75). -/
inductive Instr where
  /-- `EMBED`, word `0x00000001` (42_embed R115). -/
  | embed
  /-- `EXTRACT`, word `0x00000002` (43_extract R135). -/
  | extract
  deriving DecidableEq, Repr

end Sys2Proof
end

