-- ==== Sys2Proof/Decode.lean ====
section
/-! DEFINITION. The decoder of the command word, total on all `2^32` words (30_encoding R74), and the
encoder beside it, both from the opcode map of R72. A command word has no byte order (20_memory R52,
R53: the register is written whole), so the decoder takes the word (log entry 17). -/

namespace Sys2Proof

/-- What the decoder says of a command word. -/
inductive Decoded where
  /-- A legal word (30_encoding R72). -/
  | legal (i : Instr)
  /-- Every other word (30_encoding R73): `InvalidOperation`. -/
  | illegal (w : Word)
  deriving DecidableEq, Repr

/-- The opcode map (30_encoding R72): the word of a command. -/
def encode : Instr → Word
  | .embed => 0x00000001#32
  | .extract => 0x00000002#32

/-- Compare the whole written word with the two codes (30_encoding R74). -/
def decode (w : Word) : Decoded :=
  if w = 0x00000001#32 then .legal .embed
  else if w = 0x00000002#32 then .legal .extract
  else .illegal w

/-- The word that `nbits` bits of a table row stand for, the bits above `nbits` being 0; `none` where
it does not fit the 32-bit `CMD` register (30_encoding R70). -/
def tableWord (nbits w : Nat) : Option Word :=
  let v := w % 2 ^ nbits
  if v < 2 ^ 32 then some (BitVec.ofNat 32 v) else none

/-- The instruction the decoder reads from an opcode-table row's bits. -/
def decodeTableWord (nbits w : Nat) : Option Instr :=
  match tableWord nbits w with
  | none => none
  | some v =>
    match decode v with
    | .legal i => some i
    | .illegal _ => none

end Sys2Proof
end

