-- ==== Sys2Proof/Machine/Bits.lean ====
section
/-! DEFINITION. The 8-bit operations: the cell update (41_traversal R107 to R109), the serializer's
shift (40_serializer R93) and the group accumulation (43_extract R138). -/

namespace Sys2Proof.Machine

/-- A bit as the low bit of a byte. -/
def bitByte (b : Bool) : Byte := if b then 0x01 else 0x00

/-- The payload bit of a cell: `v & 0x01`, equivalently `v[0]` (41_traversal R107). -/
def lsbOf (v : Byte) : Bool := v &&& 0x01 == 0x01

/-- The first bit of a group, the most significant bit of a byte: `v[7]` (00_scope R10). -/
def topBit (v : Byte) : Bool := v.getLsbD 7

/-- Clear-then-set: `(v & 0xFE) | b` (41_traversal R108). -/
def withLsb (v : Byte) (b : Bool) : Byte := (v &&& 0xFE) ||| bitByte b

/-- Force the terminator bit: `v | 0x01` (41_traversal R109). -/
def forceLsb (v : Byte) : Byte := v ||| 0x01

/-- Shift one bit in at the low end: `((g << 1) | b) & 0xFF` (43_extract R138). -/
def pushBit (g : Byte) (b : Bool) : Byte := (g <<< 1) ||| bitByte b

/-- Shift left by one, zero fill: `(v << 1) & 0xFF` (40_serializer R93). -/
def shiftOut (v : Byte) : Byte := v <<< 1

/-- Bit `7 - t` of a byte: `(v >> (7 - t)) & 1` (40_serializer R91). -/
def bitFromTop (v : Byte) (t : Nat) : Bool := (v >>> (7 - t)) &&& 0x01 == 0x01

end Sys2Proof.Machine
end

