-- ==== Sys2Proof/Config.lean ====
section
/-! DEFINITION. What the spec leaves to an implementation: the three memory sizes (00_scope R8,
10_state R41), and the values it leaves open (free values: constants with no body). -/

namespace Sys2Proof

/-- The three byte memories (20_memory R50); pairwise disjoint. -/
inductive Space where
  /-- The pixel memory (10_state R35). -/
  | pix
  /-- The message-in memory (10_state R36). -/
  | min
  /-- The message-out memory (10_state R37). -/
  | mout
  deriving DecidableEq, Repr

/-- The open sizes of the three memories (00_scope R8). `State` carries one of these in a field that
no step writes, so a statement about every state is a statement about every configuration. -/
structure Config where
  /-- `PIX_CELLS`. -/
  pixCells : Nat
  /-- `MIN_BYTES`. -/
  minBytes : Nat
  /-- `MOUT_BYTES`. -/
  moutBytes : Nat
  deriving DecidableEq, Repr

/-- The constraints of 00_scope R8 on the sizes. -/
def Config.ok (c : Config) : Bool :=
  decide (c.pixCells < 2 ^ 35) && decide (c.minBytes < 2 ^ 32) && decide (c.pixCells / 8 ≤ c.moutBytes)

/-- The number of bytes in a memory (20_memory R50); its offsets are `0 .. size - 1`. -/
def Config.size (c : Config) : Space → Nat
  | .pix => c.pixCells
  | .min => c.minBytes
  | .mout => c.moutBytes

/-- The sizes the spec's own test vectors use (95_test_vectors, section 0).
DESIGN CHOICE for `State.reset` alone (log entry 1). -/
def Config.reference : Config := ⟨4096, 256, 512⟩

/-- FREE VALUE. The byte a memory location holds after power-on while nothing has written it:
unspecified but stable (10_state R40, 70_reset_and_hazards R196). Log entry 3. -/
opaque Config.powerOnByte : Space → Nat → Byte

/-- FREE VALUE. What the `k`-th read of `OLEN` made while the engine is BUSY returns
(10_state R28, 44_command R162: unspecified). Log entry 4. -/
opaque Config.busyOlen : Nat → Word

end Sys2Proof
end

