-- ==== Sys2Proof/Machine/State.lean ====
section
/-! DEFINITION. The state of the block and of the host beside it, as plain data: the seven
host-visible registers (`CMD` stores nothing and `STATUS.BUSY` is a view of `PHASE`), the eight
internal registers, the three memories (10_state R20), the configuration, and the model's own fields
(the host's pending actions, what the host has read, the memory-port monitor, the free-value counter). -/

namespace Sys2Proof.Machine

/-- `PHASE`, the engine's top-level control state (10_state R29). -/
inductive Phase where
  /-- No command is running; the host owns everything. -/
  | ready
  /-- `EMBED`: empty-message and capacity checks (42_embed R116). -/
  | eCheck
  /-- `EMBED`: validation pass over the message (42_embed R119). -/
  | eScan
  /-- `EMBED`: write pass over the cells (42_embed R121). -/
  | eWrite
  /-- `EXTRACT`: read pass over the cells (43_extract R137). -/
  | xRead
  deriving DecidableEq, Repr

/-- The error kinds (60_exceptions R171); the reserved codes 7 to 15 are never produced. -/
inductive ErrorKind where
  /-- Code 0: the command succeeded. -/
  | ok
  /-- Code 1 (R172). -/
  | emptyMessage
  /-- Code 2 (R173). -/
  | capacityExceeded
  /-- Code 3 (R174). -/
  | unsupportedCharacter
  /-- Code 4 (R175). -/
  | noTerminatorFound
  /-- Code 5 (R176). -/
  | invalidOperation
  /-- Code 6 (R177). -/
  | operandRange
  deriving DecidableEq, Repr

/-- The host-visible registers (10_state R21). -/
inductive RegName where
  | cmd | status | height | width | channels | mlen | olen
  deriving DecidableEq, Repr

/-- What the host may do next (44_command R161, R162; the notation of 30_encoding R83). -/
inductive HostAction where
  /-- `WR`: a write of `bytes` bytes at register offset `off`. -/
  | regWrite (off bytes : Nat) (v : Word)
  /-- `RD`: a read of `bytes` bytes at register offset `off`. -/
  | regRead (off bytes : Nat)
  /-- `ST`: a write of one byte to a memory. -/
  | memWrite (sp : Space) (a : Nat) (v : Byte)
  /-- `LD`: a read of one byte of a memory. -/
  | memRead (sp : Space) (a : Nat)
  /-- `RESET` (70_reset_and_hazards R195). -/
  | reset
  /-- `WAIT`: poll `STATUS` until `DONE` = 1 (44_command R163). -/
  | wait
  /-- The end of the macro `extract` (30_encoding R84): when `STATUS.ERR` = 0, `RD OLEN` and then
  `LD MOUT[0 .. OLEN-1]`. -/
  | readResult
  /-- Not a host action: one engine step occurs here (`engine x1` of 30_encoding R83). -/
  | engine
  deriving DecidableEq, Repr

/-- What a read gave the host. -/
inductive HostSeen where
  /-- A register read: its offset and the 32-bit value. -/
  | reg (off : Nat) (v : Word)
  /-- A memory read: the memory, the offset, the byte. -/
  | byte (sp : Space) (a : Nat) (v : Byte)
  deriving DecidableEq, Repr

/-- One access of the engine as a memory-port monitor sees it (20_memory R61, 60_exceptions R191). -/
inductive PortAccess where
  /-- The engine read one byte. -/
  | read (sp : Space) (a : Nat)
  /-- The engine wrote one byte. -/
  | write (sp : Space) (a : Nat)
  deriving DecidableEq, Repr

/-- A byte memory: the offsets whose content is known, with that content, offsets strictly rising.
An unlisted offset holds no known byte: it still has its power-on content
(`Config.powerOnByte`; 10_state R40). -/
abbrev Memory := List Host.Cell

/-- The state of the whole system (10_state R20). -/
structure State where
  /-- The memory sizes (00_scope R8); no step writes them. -/
  cfg : Config
  /-- `PHASE` (10_state R29). -/
  phase : Phase
  /-- `STATUS.DONE` (10_state R23). -/
  done : Bool
  /-- `STATUS.ERR` (10_state R23, 60_exceptions R171). -/
  err : ErrorKind
  /-- `HEIGHT`, `H` (10_state R24). -/
  height : Word
  /-- `WIDTH`, `W` (10_state R25). -/
  width : Word
  /-- `CHANNELS`, `C` (10_state R26). -/
  channels : Word
  /-- `MLEN` (10_state R27). -/
  mlen : Word
  /-- `OLEN` (10_state R28). -/
  olen : Word
  /-- `POS`, the Traversal position of the next cell to visit (10_state R30). This and the other
  internal registers keep the reference values between commands (log entry 9). -/
  pos : Nat
  /-- `SI`, the index of the next message byte to validate (10_state R31). -/
  si : Nat
  /-- `SR`, the serializer's shift register (10_state R32). -/
  sr : Byte
  /-- `SC`, the count of bits still to be shifted out (10_state R32). -/
  sc : Nat
  /-- `G`, the running bit-group (10_state R33). -/
  g : Byte
  /-- `GC`, the number of bits accumulated in `G` (10_state R33). -/
  gc : Nat
  /-- `N`, the number of bytes emitted so far (10_state R34). -/
  n : Nat
  /-- `PIX` (10_state R35). -/
  pixMem : Memory
  /-- `MIN` (10_state R36). -/
  minMem : Memory
  /-- `MOUT` (10_state R37). -/
  moutMem : Memory
  /-- The model's own: the host's actions still to come, first one next (log entry 2). -/
  host : List HostAction
  /-- The model's own: what the host has read, newest first (log entry 2). -/
  seen : List HostSeen
  /-- The model's own: the engine's memory accesses, newest first (20_memory R61; log entry 6). -/
  port : List PortAccess
  /-- The model's own: how many values of `Config.busyOlen` have been used (log entry 4). -/
  freeIdx : Nat
  deriving DecidableEq, Repr

/-- Why a step stops with a fault. -/
inductive Fault where
  /-- An access to an offset the memory does not have (20_memory R50: offsets `0 .. size-1` only).
  Raised by the host's `memRead` and `memWrite`; the engine raises it only in states no run reaches
  (20_memory R57). Safe: no claim covers what lies beyond. -/
  | noSuchLocation (sp : Space) (a : Nat)
  deriving DecidableEq, Repr

/-- Why a step is refused: the host makes a move the spec gives no meaning. -/
inductive Refusal where
  /-- Raised by `exec` alone, for a command that has no meaning yet. Safe. -/
  | notModelled (mnemonic : String)
  /-- The host accesses `PIX`, `MIN` or `MOUT` while the engine is BUSY (20_memory R59: "a model
  refuses it"). Raised by the host port. Safe. -/
  | memoryWhileBusy
  /-- A register access that is not one whole 32-bit register at a multiple of 4 (20_memory R53: "a
  model refuses it"). Raised by the host port. Safe. -/
  | registerAccessShape
  deriving DecidableEq, Repr

/-- The state after a power-on reset with given sizes (10_state R40): every register 0, READY,
nothing known of the memories. -/
def State.powerOn (c : Config) : State where
  cfg := c
  phase := .ready
  done := false
  err := .ok
  height := 0
  width := 0
  channels := 0
  mlen := 0
  olen := 0
  pos := 0
  si := 0
  sr := 0
  sc := 0
  g := 0
  gc := 0
  n := 0
  pixMem := []
  minMem := []
  moutMem := []
  host := []
  seen := []
  port := []
  freeIdx := 0

/-- The machine right after reset (10_state R40), with the reference sizes (log entry 1). -/
def State.reset : State := State.powerOn Config.reference

end Sys2Proof.Machine
end

