-- ==== Sys2Proof/Machine/Flags.lean ====
section
/-! DEFINITION. The `STATUS` register (10_state R23): `BUSY` as a view of `PHASE`, the error codes
(60_exceptions R171), and the 32-bit word the host reads. There are no other flags (10_state R38). -/

namespace Sys2Proof.Machine

/-- BUSY exactly when `PHASE ≠ READY` (10_state R23, R29). -/
def Phase.busy : Phase → Bool
  | .ready => false
  | .eCheck => true
  | .eScan => true
  | .eWrite => true
  | .xRead => true

/-- The code of an error kind (60_exceptions R171). -/
def ErrorKind.code : ErrorKind → BitVec 4
  | .ok => 0
  | .emptyMessage => 1
  | .capacityExceeded => 2
  | .unsupportedCharacter => 3
  | .noTerminatorFound => 4
  | .invalidOperation => 5
  | .operandRange => 6

/-- `STATUS` as a word: `BUSY` in bit 0, `DONE` in bit 1, `ERR` in bits 7:4, the rest 0
(10_state R23). -/
def State.statusWord (s : State) : Word :=
  0#24 ++ s.err.code ++ 0#2 ++ BitVec.ofBool s.done ++ BitVec.ofBool s.phase.busy

end Sys2Proof.Machine
end

