-- ==== Sys2Proof/Machine/Operands.lean ====
section
/-! DEFINITION. The operands of a command (30_encoding R75), all natural numbers that never wrap
(00_scope R9), and the issue check on them (44_command R155). -/

namespace Sys2Proof.Machine

/-- `H`, the number of rows (10_state R24). -/
def State.rows (s : State) : Nat := s.height.toNat

/-- `W`, the number of columns (10_state R25). -/
def State.cols (s : State) : Nat := s.width.toNat

/-- `C`, the number of channels (10_state R26). -/
def State.chans (s : State) : Nat := s.channels.toNat

/-- `H·W·C`, the number of cells of the buffer and of positions of the Traversal (41_traversal R102). -/
def State.cells (s : State) : Nat := s.rows * s.cols * s.chans

/-- `MLEN` as a number of bytes (10_state R27). -/
def State.msgLen (s : State) : Nat := s.mlen.toNat

/-- `L = 8·MLEN`, the length of the Bitstream (40_serializer R92). -/
def State.bitLen (s : State) : Nat := 8 * s.msgLen

/-- The number of complete groups, `K = floor(H·W·C / 8)` (43_extract R136). -/
def State.groups (s : State) : Nat := s.cells / 8

/-- The buffer fits `PIX` (44_command R155, first operand test). -/
def State.bufferFits (s : State) : Bool := decide (s.cells ≤ s.cfg.pixCells)

/-- The message fits `MIN` (44_command R155, second operand test, `EMBED` only). -/
def State.messageFits (s : State) : Bool := decide (s.msgLen ≤ s.cfg.minBytes)

/-- The Capacity of the buffer in whole message bytes, `floor(H·W·C / 8) - 1` (42_embed R118). -/
def State.capacity (s : State) : Nat := s.cells / 8 - 1

end Sys2Proof.Machine
end

