-- ==== Sys2Proof/Machine/Ops.lean ====
section
/-! DEFINITION. The named operations over memories and registers: reading and writing one byte
(20_memory R53), completing a command with or without an error (44_command R160, 60_exceptions R180),
the register space (10_state R21), reset (70_reset_and_hazards R195). -/

namespace Sys2Proof.Machine

/-- What one step answers. -/
abbrev Res := Host.Outcome State Fault Refusal

/-! ### Memories -/

/-- The known content of an offset; none where nothing has been written since power-on. -/
def Memory.find : Memory → Nat → Option Byte
  | [], _ => none
  | (k, v) :: m, a => if k = a then some v else Memory.find m a

/-- Store a byte, keeping the offsets strictly rising: an offset already listed keeps its place. -/
def Memory.put : Memory → Nat → Byte → Memory
  | [], a, v => [(a, v)]
  | (k, w) :: m, a, v =>
    if a < k then (a, v) :: (k, w) :: m
    else if a = k then (a, v) :: m
    else (k, w) :: Memory.put m a v

/-- The canonical form: offsets strictly rising. No entry can equal what an unlisted offset holds,
which is no known byte (log entry 3). -/
abbrev Memory.wf (m : Memory) : Prop := m.Pairwise (fun x y => x.1 < y.1)

/-- Every listed offset exists (20_memory R50). -/
abbrev Memory.within (m : Memory) (size : Nat) : Prop := ∀ x ∈ m, x.1 < size

/-- The memory of a space. -/
def State.mem (s : State) : Space → Memory
  | .pix => s.pixMem
  | .min => s.minMem
  | .mout => s.moutMem

/-- Replace the memory of a space. -/
def State.setMem (s : State) (sp : Space) (m : Memory) : State :=
  match sp with
  | .pix => { s with pixMem := m }
  | .min => { s with minMem := m }
  | .mout => { s with moutMem := m }

/-- The byte at an offset: the one last written, else the unknown power-on content
(20_memory R59: "each read returns the value of the latest earlier write"; 10_state R40). -/
def State.byteAt (s : State) (sp : Space) (a : Nat) : Byte :=
  match (s.mem sp).find a with
  | some v => v
  | none => Config.powerOnByte sp a

/-- Store a byte at an offset. -/
def State.putByte (s : State) (sp : Space) (a : Nat) (v : Byte) : State :=
  s.setMem sp ((s.mem sp).put a v)

/-- Let the memory-port monitor see an access of the engine (20_memory R61). -/
def State.note (s : State) (x : PortAccess) : State := { s with port := x :: s.port }

/-- `MemRead(sp, a, 1)` by the engine (00_scope R12, 20_memory R53), then the rest of the step. -/
def engineRead (s : State) (sp : Space) (a : Nat) (rest : Byte → State → Res) : Res :=
  if a < s.cfg.size sp then rest (s.byteAt sp a) (s.note (.read sp a))
  else .fault (.noSuchLocation sp a)

/-- `MemWrite(sp, a, 1, v)` by the engine (00_scope R12, 20_memory R53), then the rest of the step. -/
def engineWrite (s : State) (sp : Space) (a : Nat) (v : Byte) (rest : State → Res) : Res :=
  if a < s.cfg.size sp then rest ((s.putByte sp a v).note (.write sp a))
  else .fault (.noSuchLocation sp a)

/-! ### Completion of a command: the block's exceptions (60_exceptions, introduction) -/

/-- `raise E` (60_exceptions R180): `PHASE <- READY`, `DONE <- 1`, `ERR <- code(E)`; nothing else is
saved, switched or vectored. -/
def raiseError (e : ErrorKind) (s : State) : State :=
  { s with phase := .ready, done := true, err := e }

/-- `finish(OK)` (44_command R160). -/
def finishOk (s : State) : State := { s with phase := .ready, done := true, err := .ok }

/-- The first statements of command issue: `DONE <- 0`, `ERR <- 0` (44_command R155). There is no
return instruction; this is how the block leaves a completed or failed command (60_exceptions R182). -/
def beginIssue (s : State) : State := { s with done := false, err := .ok }

/-! ### The register space -/

/-- The byte offset of a register (10_state R21). -/
def RegName.offset : RegName → Nat
  | .cmd => 0x00
  | .status => 0x04
  | .height => 0x08
  | .width => 0x0C
  | .channels => 0x10
  | .mlen => 0x14
  | .olen => 0x18

/-- The register at a byte offset; none at 0x1C and above (10_state R21). -/
def RegName.ofOffset (off : Nat) : Option RegName :=
  if off = 0x00 then some .cmd
  else if off = 0x04 then some .status
  else if off = 0x08 then some .height
  else if off = 0x0C then some .width
  else if off = 0x10 then some .channels
  else if off = 0x14 then some .mlen
  else if off = 0x18 then some .olen
  else none

/-- A register access is one whole 32-bit register at a multiple of 4 (20_memory R53); any other is
refused (log entry 12). -/
def regAccessOk (off bytes : Nat) : Bool := decide (bytes = 4) && decide (off % 4 = 0)

/-- What a host read of a register returns, and the state after it: reading changes nothing
(20_memory R55) but the count of free values used, where `OLEN` is read while BUSY
(10_state R28, 44_command R162). `CMD` reads 0 (10_state R22); so does an offset that is no
register (10_state R21). -/
def readReg (s : State) (off : Nat) : Word × State :=
  match RegName.ofOffset off with
  | none => (0, s)
  | some .cmd => (0, s)
  | some .status => (s.statusWord, s)
  | some .height => (s.height, s)
  | some .width => (s.width, s)
  | some .channels => (s.channels, s)
  | some .mlen => (s.mlen, s)
  | some .olen =>
    if s.phase.busy then (Config.busyOlen s.freeIdx, { s with freeIdx := s.freeIdx + 1 })
    else (s.olen, s)

/-- A host write of an operand register while READY (44_command R161). `STATUS`, `OLEN` and offsets
that are no register ignore it (10_state R21); `CMD` stores nothing (10_state R22) and its issue is
`issueWord`. -/
def writeReg (s : State) (off : Nat) (v : Word) : State :=
  match RegName.ofOffset off with
  | none => s
  | some .cmd => s
  | some .status => s
  | some .height => { s with height := v }
  | some .width => { s with width := v }
  | some .channels => { s with channels := v }
  | some .mlen => { s with mlen := v }
  | some .olen => s

/-- Reset (70_reset_and_hazards R195): every register to its value of 10_state R40; the memories are
not written. What the host still plans, has read, and the monitor are no registers of the block (log
entries 2, 6). DESIGN CHOICE: the same while BUSY (R197; log entry 14). -/
def resetBlock (s : State) : State :=
  { s with
    phase := .ready, done := false, err := .ok
    height := 0, width := 0, channels := 0, mlen := 0, olen := 0
    pos := 0, si := 0, sr := 0, sc := 0, g := 0, gc := 0, n := 0 }

end Sys2Proof.Machine
end

