-- ==== Sys2Proof/Machine/Serializer.lean ====
section
/-! DEFINITION. The bit-serializer (40_serializer): the Bitstream as a function of `MIN` (R91), and
the shift-register form that the embedder runs (R93). -/

namespace Sys2Proof.Machine

/-- `bit(j)`, bit `7 - (j mod 8)` of message byte `j div 8` (40_serializer R91). DESIGN CHOICE: the rule
leaves `bit(j)` undefined for `j ≥ 8·MLEN`, where it is never requested; this function goes on with the
bytes of `MIN` that lie there (log entry 18). -/
def State.bit (s : State) (j : Nat) : Bool := bitFromTop (s.byteAt .min (j / 8)) (j % 8)

/-- Shift one bit out of `SR`, most significant first (40_serializer R93, last four lines). -/
def shiftBit (s : State) (rest : Bool → State → Res) : Res :=
  rest (topBit s.sr) { s with sr := shiftOut s.sr, sc := s.sc - 1 }

/-- Deliver the bit for position `j` (40_serializer R93): at a byte boundary the next message byte is
loaded first. DESIGN CHOICE: the form with `SR` and `SC`, which R94 allows (log entry 11). -/
def nextBit (s : State) (j : Nat) (rest : Bool → State → Res) : Res :=
  if s.sc = 0 then
    engineRead s .min (j / 8) fun v s1 => shiftBit { s1 with sr := v, sc := 8 } rest
  else shiftBit s rest

end Sys2Proof.Machine
end

