-- ==== Sys2Proof/Machine/Traversal.lean ====
section
/-! DEFINITION. The Traversal (41_traversal R100 to R106) and the three cell primitives
(R107 to R109). -/

namespace Sys2Proof.Machine

/-- A (channel, row, column) triple (41_traversal R100). -/
structure Triple where
  ch : Nat
  row : Nat
  col : Nat
  deriving DecidableEq, Repr

/-- `cell(p)`: the triple visited at position `p` (41_traversal R101). DESIGN CHOICE: the rule gives it for
`p < H·W·C` only, where `H` and `W` are not 0 (00_scope R11); this function goes on past the last position
and takes a quotient by 0 as 0 and a remainder by 0 as the dividend (log entry 19). -/
def cellAt (h w p : Nat) : Triple := ⟨p / (h * w), p % (h * w) / w, p % w⟩

/-- The position of a triple (41_traversal R101, "and conversely"). -/
def positionOf (h w : Nat) (t : Triple) : Nat := t.ch * (h * w) + t.row * w + t.col

/-- `off(r, c, ch)`, the linear PIX offset of a cell (20_memory R51). -/
def offsetOf (w c : Nat) (t : Triple) : Nat := (t.row * w + t.col) * c + t.ch

/-- `addr(p)` (41_traversal R103). DESIGN CHOICE: from position `H·W·C` on it goes on as `cellAt` does (log
entry 19). -/
def addrAt (h w c p : Nat) : Nat := offsetOf w c (cellAt h w p)

/-- The cursor form's advance after a visit (41_traversal R105). -/
def Triple.advance (h w : Nat) (t : Triple) : Triple :=
  if t.col + 1 < w then { t with col := t.col + 1 }
  else if t.row + 1 < h then { t with col := 0, row := t.row + 1 }
  else ⟨t.ch + 1, 0, 0⟩

/-- The triple after `p` advances from `(0, 0, 0)` (41_traversal R105; log entry 15; past
`H·W·C` advances the rule says nothing, log entry 19). -/
def cursorAt (h w : Nat) : Nat → Triple
  | 0 => ⟨0, 0, 0⟩
  | p + 1 => (cursorAt h w p).advance h w

/-- `addr(p)` for the dimensions in the registers (41_traversal R103). DESIGN CHOICE: from position `H·W·C`
on, where no run asks for it, it goes on as `cellAt` does (log entry 19). -/
def State.addr (s : State) (p : Nat) : Nat := addrAt s.rows s.cols s.chans p

/-- `lsb(p) = PIX[addr(p)] & 1` (43_extract R136): the view, with no access made. -/
def State.lsbAt (s : State) (p : Nat) : Bool := lsbOf (s.byteAt .pix (s.addr p))

/-- `LSBR(p)` (41_traversal R107). -/
def lsbr (s : State) (p : Nat) (rest : Bool → State → Res) : Res :=
  engineRead s .pix (s.addr p) fun v s1 => rest (lsbOf v) s1

/-- `LSBW(p, b)` (41_traversal R108): the write is made even when the byte does not change. -/
def lsbw (s : State) (p : Nat) (b : Bool) (rest : State → Res) : Res :=
  engineRead s .pix (s.addr p) fun v s1 => engineWrite s1 .pix (s.addr p) (withLsb v b) rest

/-- `LSBSET(p)` (41_traversal R109). -/
def lsbset (s : State) (p : Nat) (rest : State → Res) : Res :=
  engineRead s .pix (s.addr p) fun v s1 => engineWrite s1 .pix (s.addr p) (forceLsb v) rest

end Sys2Proof.Machine
end

