-- ==== Sys2Proof/Machine/Embed.lean ====
section
/-! DEFINITION. The meaning of `EMBED` (42_embed): its issue (44_command R155, R156) and its three
step rules (R116, R119, R121). -/

namespace Sys2Proof.Machine

/-- Issue of `EMBED` while READY (44_command R155): the operand-range tests, then dispatch (R156). -/
def embedIssue (s : State) : State :=
  if !s.bufferFits then raiseError .operandRange (beginIssue s)
  else if !s.messageFits then raiseError .operandRange (beginIssue s)
  else { beginIssue s with phase := .eCheck }

/-- The step of phase `E_CHECK` (42_embed R116). -/
def embedCheck (s : State) : State :=
  if s.msgLen = 0 then raiseError .emptyMessage s
  else if 8 * s.msgLen + 8 > s.cells then raiseError .capacityExceeded s
  else { s with si := 0, phase := .eScan }

/-- The step of phase `E_SCAN` (42_embed R119). -/
def embedScan (s : State) : Res :=
  if s.si = s.msgLen then .next { s with pos := 0, sc := 0, phase := .eWrite }
  else engineRead s .min s.si fun v s1 =>
    if topBit v then .next (raiseError .unsupportedCharacter s1)
    else .next { s1 with si := s1.si + 1 }

/-- The step of phase `E_WRITE` (42_embed R121): a data cell, or the terminator cell. -/
def embedWrite (s : State) : Res :=
  if s.pos < s.bitLen then
    nextBit s s.pos fun b s1 =>
      lsbw s1 s.pos b fun s2 => .next { s2 with pos := s.pos + 1 }
  else
    lsbset s s.bitLen fun s1 => .next (finishOk { s1 with pos := s.bitLen + 1 })

/-- One step of the command `EMBED` (42_embed R115): its issue while READY, the step rule of the
current phase while it runs. While the engine is BUSY with `EXTRACT` an issue changes nothing
(44_command R162; DESIGN CHOICE, log entry 10). -/
def execEmbed (s : State) : Res :=
  match s.phase with
  | .ready => .next (embedIssue s)
  | .eCheck => .next (embedCheck s)
  | .eScan => embedScan s
  | .eWrite => embedWrite s
  | .xRead => .next s

end Sys2Proof.Machine
end

