-- ==== Sys2Proof/Machine/Extract.lean ====
section
/-! DEFINITION. The meaning of `EXTRACT` (43_extract): its issue (44_command R155, R157) and its step
rule (R137). -/

namespace Sys2Proof.Machine

/-- Issue of `EXTRACT` while READY (44_command R155): the buffer-range test, then dispatch (R157). -/
def extractIssue (s : State) : State :=
  if !s.bufferFits then raiseError .operandRange (beginIssue s)
  else { beginIssue s with pos := 0, g := 0x00, gc := 0, n := 0, phase := .xRead }

/-- `CHECK_SENTINEL` on a complete group (43_extract R137): `TERMINATE` (R141) or `EMIT_BYTE`
(R140). DESIGN CHOICE: the bytes emitted before a failure stay (R142; log entry 8). -/
def closeGroup (s : State) (g : Byte) : Res :=
  if topBit g then .next (finishOk { s with olen := BitVec.ofNat 32 s.n })
  else engineWrite s .mout s.n g fun s1 => .next { s1 with n := s.n + 1, g := 0x00, gc := 0 }

/-- The step of phase `X_READ` (43_extract R137). -/
def extractRead (s : State) : Res :=
  if s.pos = s.cells then .next (raiseError .noTerminatorFound { s with olen := 0 })
  else lsbr s s.pos fun b s1 =>
    let g := pushBit s.g b
    let s2 := { s1 with pos := s.pos + 1 }
    if s.gc < 7 then .next { s2 with g := g, gc := s.gc + 1 }
    else closeGroup s2 g

/-- One step of the command `EXTRACT` (43_extract R135): its issue while READY, its step rule while it
runs. While the engine is BUSY with `EMBED` an issue changes nothing (44_command R162; DESIGN CHOICE, log entry 10). -/
def execExtract (s : State) : Res :=
  match s.phase with
  | .ready => .next (extractIssue s)
  | .eCheck => .next s
  | .eScan => .next s
  | .eWrite => .next s
  | .xRead => extractRead s

end Sys2Proof.Machine
end

