-- ==== Sys2Proof/Machine/HostPort.lean ====
section
/-! DEFINITION. What moves next (44_command R158, R161, R162): the engine's own step while BUSY, and
the host's actions while READY and while BUSY. The host's pending actions stand in `State.host`; where
the host does nothing or waits, a BUSY engine steps (log entry 2). -/

namespace Sys2Proof.Machine

/-- The command a phase belongs to (10_state R29). -/
def Phase.command : Phase → Option Instr
  | .ready => none
  | .eCheck => some .embed
  | .eScan => some .embed
  | .eWrite => some .embed
  | .xRead => some .extract

/-- The engine's step (44_command R158): the step rule of the current phase; none while READY. -/
def engineStep (s : State) : Res :=
  match s.phase.command with
  | some i => exec i s
  | none => .next s

/-- A host write of the command word while READY (44_command R155). An illegal word completes at once
with `InvalidOperation` (60_exceptions R176). -/
def issueWord (w : Word) (s : State) : Res :=
  match decode w with
  | .legal i => exec i s
  | .illegal _ => .next (raiseError .invalidOperation (beginIssue s))

/-- The host has read something. -/
def State.see (s : State) (x : HostSeen) : State := { s with seen := x :: s.seen }

/-- A host register read, in any phase (44_command R161, R162). -/
def hostRegRead (s : State) (off bytes : Nat) : Res :=
  if regAccessOk off bytes then .next ((readReg s off).2.see (.reg off (readReg s off).1))
  else .refused .registerAccessShape

/-- A host register write while READY (44_command R161): to `CMD` it issues (R155). -/
def hostRegWriteReady (s : State) (off bytes : Nat) (v : Word) : Res :=
  if regAccessOk off bytes then
    if off = RegName.cmd.offset then issueWord v s else .next (writeReg s off v)
  else .refused .registerAccessShape

/-- A host register write while BUSY is ignored: no effect, not queued, not reported
(44_command R162). -/
def hostRegWriteBusy (s : State) (off bytes : Nat) : Res :=
  if regAccessOk off bytes then .next s else .refused .registerAccessShape

/-- A host memory read while READY (44_command R161). DESIGN CHOICE: an offset that does not exist
faults (log entry 7). -/
def hostMemRead (s : State) (sp : Space) (a : Nat) : Res :=
  if a < s.cfg.size sp then .next (s.see (.byte sp a (s.byteAt sp a)))
  else .fault (.noSuchLocation sp a)

/-- A host memory write while READY (44_command R161). DESIGN CHOICE: as for a read (log entry 7). -/
def hostMemWrite (s : State) (sp : Space) (a : Nat) (v : Byte) : Res :=
  if a < s.cfg.size sp then .next (s.putByte sp a v)
  else .fault (.noSuchLocation sp a)

/-- `LD MOUT[0 .. k-1]`, byte by byte (30_encoding R83). -/
def loadMout (k : Nat) : List HostAction := (List.range k).map (.memRead .mout)

/-- The end of the macro `extract` (30_encoding R84): "when `STATUS.ERR = 0`, `RD OLEN`;
`LD MOUT[0 .. OLEN-1]` (omitted when `OLEN = 0`)". DESIGN CHOICE: expanded when it is reached (log
entry 13). -/
def resultReads (s : State) : List HostAction :=
  match s.err with
  | .ok => .regRead RegName.olen.offset 4 :: loadMout s.olen.toNat
  | .emptyMessage => []
  | .capacityExceeded => []
  | .unsupportedCharacter => []
  | .noTerminatorFound => []
  | .invalidOperation => []
  | .operandRange => []

/-- One host action while READY (44_command R161). `s` is the state without the action in `host`. -/
def hostReady (x : HostAction) (s : State) : Res :=
  match x with
  | .regWrite off bytes v => hostRegWriteReady s off bytes v
  | .regRead off bytes => hostRegRead s off bytes
  | .memWrite sp a v => hostMemWrite s sp a v
  | .memRead sp a => hostMemRead s sp a
  | .reset => .next (resetBlock s)
  | .wait => if s.done then .next s else .next { s with host := .wait :: s.host }
  | .readResult => .next { s with host := resultReads s ++ s.host }
  | .engine => .next s

/-- One host action while BUSY (44_command R162). `s` is the state without the action in `host`. A
waiting host polls again after the engine's step (44_command R163). -/
def hostBusy (x : HostAction) (s : State) : Res :=
  match x with
  | .regWrite off bytes _ => hostRegWriteBusy s off bytes
  | .regRead off bytes => hostRegRead s off bytes
  | .memWrite _ _ _ => .refused .memoryWhileBusy
  | .memRead _ _ => .refused .memoryWhileBusy
  | .reset => .next (resetBlock s)
  | .wait => engineStep { s with host := .wait :: s.host }
  | .readResult => .refused .memoryWhileBusy
  | .engine => engineStep s

/-- The next transition of the whole system (44_command R158). With no host action left a READY block
idles (60_exceptions R192) and a BUSY engine goes on (44_command R166). -/
def systemStep (s : State) : Res :=
  match s.host with
  | [] => engineStep s
  | x :: rest =>
    if s.phase.busy then hostBusy x { s with host := rest }
    else hostReady x { s with host := rest }

/-- Give the machine a command word where it takes its next one: the host's next action writes it to
`CMD`, and the engine is READY to take it (44_command R155). -/
def offerWord (s : State) (w : Word) : State :=
  { s with phase := .ready, host := .regWrite RegName.cmd.offset 4 w :: s.host }

end Sys2Proof.Machine
end

