-- ==== Sys2Proof/Machine/Step.lean ====
section
/-! DEFINITION. One step of the whole system, and where the next command word is taken from. -/

namespace Sys2Proof.Machine

/-- One step: the engine's (00_scope R13) or one host action (44_command R158). It has no duration
(log entry 16). -/
def step (s : State) : Host.Outcome State Fault Refusal := systemStep s

/-- The state with a command word placed where `step` takes its next one: the host's next action
writes it to `CMD` of a READY block (log entry 5). A table row that does not fit the 32-bit register
places nothing. -/
def State.withFetchWord (s : State) (nbits w : Nat) : State :=
  match tableWord nbits w with
  | some v => offerWord s v
  | none => s

end Sys2Proof.Machine
end

