-- ==== Sys2Proof/Machine/BigStep.lean ====
section
/-! DEFINITION. What a whole command does, in the words of the spec's big-step rules (42_embed R127,
43_extract R146), and the running of a command step by step, to state that the two agree
(00_scope R13). -/

namespace Sys2Proof.Machine

/-- `k` steps of one command, the first of which is its issue when the block is READY. -/
def execTimes (i : Instr) : Nat → State → Res
  | 0, s => .next s
  | k + 1, s =>
    match exec i s with
    | .next s' => execTimes i k s'
    | .fault r => .fault r
    | .refused r => .refused r

/-- `val(k)`, the value of a group: the first bit read is bit 7 (30_encoding R79). -/
def State.groupVal (s : State) (k : Nat) : Byte :=
  (List.range 8).foldl (fun g t => pushBit g (s.lsbAt (8 * k + t))) 0

/-- The least group below `k` whose first bit is 1 (43_extract R146). -/
def State.firstTerminator (s : State) (k : Nat) : Option Nat :=
  (List.range k).find? fun j => s.lsbAt (8 * j)

/-- The index of the first message byte of 128 or more (42_embed R120). -/
def State.firstBadByte (s : State) : Option Nat :=
  (List.range s.msgLen).find? fun i => topBit (s.byteAt .min i)

/-- The error of an `EMBED`, or none (42_embed R127; the order is 60_exceptions R179). -/
def State.embedError (s : State) : Option ErrorKind :=
  if s.cells > s.cfg.pixCells ∨ s.msgLen > s.cfg.minBytes then some .operandRange
  else if s.msgLen = 0 then some .emptyMessage
  else if 8 * s.msgLen + 8 > s.cells then some .capacityExceeded
  else match s.firstBadByte with
    | some _ => some .unsupportedCharacter
    | none => none

/-- The steps of an `EMBED` after its issue (42_embed R131). -/
def State.embedSteps (s : State) : Nat :=
  if s.cells > s.cfg.pixCells ∨ s.msgLen > s.cfg.minBytes then 0
  else if s.msgLen = 0 then 1
  else if 8 * s.msgLen + 8 > s.cells then 1
  else match s.firstBadByte with
    | some i => 1 + i + 1
    | none => 9 * s.msgLen + 3

/-- The error of an `EXTRACT`, or none (43_extract R146). -/
def State.extractError (s : State) : Option ErrorKind :=
  if s.cells > s.cfg.pixCells then some .operandRange
  else match s.firstTerminator s.groups with
    | some _ => none
    | none => some .noTerminatorFound

/-- The steps of an `EXTRACT` after its issue (43_extract R151). -/
def State.extractSteps (s : State) : Nat :=
  if s.cells > s.cfg.pixCells then 0
  else match s.firstTerminator s.groups with
    | some k => 8 * (k + 1)
    | none => s.cells + 1

/-- The validation reads of the first `k` message bytes, in order (42_embed R130). -/
def scanTrace (k : Nat) : List PortAccess := (List.range k).map (.read .min)

/-- The accesses of the write pass for position `p`: the serializer's read of a new message byte, if
any, then the cell's read and write (42_embed R130, 40_serializer R93). -/
def State.cellTrace (s : State) (p : Nat) : List PortAccess :=
  (if p % 8 = 0 then [.read .min (p / 8)] else []) ++ [.read .pix (s.addr p), .write .pix (s.addr p)]

/-- The accesses of a whole `EMBED`, in order (42_embed R130). -/
def State.embedTrace (s : State) : List PortAccess :=
  if s.cells > s.cfg.pixCells ∨ s.msgLen > s.cfg.minBytes then []
  else if s.msgLen = 0 then []
  else if 8 * s.msgLen + 8 > s.cells then []
  else match s.firstBadByte with
    | some i => scanTrace (i + 1)
    | none =>
      scanTrace s.msgLen ++ (List.range s.bitLen).flatMap s.cellTrace ++
        [.read .pix (s.addr s.bitLen), .write .pix (s.addr s.bitLen)]

/-- The accesses of a read pass over the first `m` positions in which the first `k` groups are
emitted: the write of byte `i` stands between the reads of positions `8i + 7` and `8i + 8`
(43_extract R151). -/
def State.readTrace (s : State) (m k : Nat) : List PortAccess :=
  (List.range m).flatMap fun p =>
    .read .pix (s.addr p) :: (if p % 8 = 7 ∧ p / 8 < k then [.write .mout (p / 8)] else [])

/-- The accesses of a whole `EXTRACT`, in order (43_extract R151). -/
def State.extractTrace (s : State) : List PortAccess :=
  if s.cells > s.cfg.pixCells then []
  else match s.firstTerminator s.groups with
    | some k => s.readTrace (8 * (k + 1)) k
    | none => s.readTrace s.cells s.groups

end Sys2Proof.Machine
end

