-- ==== Sys2Proof/Machine/HostPrograms.lean ====
section
/-! DEFINITION. The host notation (30_encoding R83) and its macros (R84) as lists of host actions. -/

namespace Sys2Proof.Machine

/-- `WR <REG>, <value>`. -/
def wr (r : RegName) (v : Word) : List HostAction := [.regWrite r.offset 4 v]

/-- `RD <REG>`. -/
def rd (r : RegName) : List HostAction := [.regRead r.offset 4]

/-- `ST <SPACE>[<offset>], <byte> ...`: consecutive bytes from the offset on. -/
def st (sp : Space) (a : Nat) : List Byte → List HostAction
  | [] => []
  | v :: vs => .memWrite sp a v :: st sp (a + 1) vs

/-- `FILL <SPACE>[<lo>..<hi>], <byte>`. -/
def fill (sp : Space) (lo hi : Nat) (v : Byte) : List HostAction :=
  (List.range (hi + 1 - lo)).map fun k => .memWrite sp (lo + k) v

/-- `LD <SPACE>[<lo>..<hi>]`. -/
def ld (sp : Space) (lo hi : Nat) : List HostAction :=
  (List.range (hi + 1 - lo)).map fun k => .memRead sp (lo + k)

/-- `engine xN`. -/
def engineX (k : Nat) : List HostAction := List.replicate k .engine

/-- The macro `embed(m, H, W, C)` (30_encoding R84). -/
def embedMacro (m : List Byte) (h w c : Word) : List HostAction :=
  st .min 0 m ++ wr .mlen (BitVec.ofNat 32 m.length) ++ wr .height h ++ wr .width w ++ wr .channels c
    ++ wr .cmd (encode .embed) ++ [.wait] ++ rd .status

/-- The macro `extract(H, W, C)` (30_encoding R84). -/
def extractMacro (h w c : Word) : List HostAction :=
  wr .height h ++ wr .width w ++ wr .channels c ++ wr .cmd (encode .extract) ++ [.wait]
    ++ rd .status ++ [.readResult]

end Sys2Proof.Machine
end

