-- ==== Sys2Proof/Machine/Invariant.lean ====
section
/-! DEFINITION. The invariants of the state (10_state R42), with the widths the spec says suffice
(10_state R30, R31, R34), the canonical form of the memories, and what the passes have established
(42_embed R119, 40_serializer R93). -/

namespace Sys2Proof.Machine

/-- The three memories are in canonical form and hold no offset that does not exist. -/
abbrev State.memOk (s : State) : Prop :=
  s.pixMem.wf ∧ s.minMem.wf ∧ s.moutMem.wf ∧
  s.pixMem.within s.cfg.pixCells ∧ s.minMem.within s.cfg.minBytes ∧ s.moutMem.within s.cfg.moutBytes

/-- The internal registers fit the widths the spec gives (10_state R30: 36 bits for `POS`; R31, R34:
32 bits for `SI` and `N`; R32: `SC` in 0 .. 8; R33: `GC` in 0 .. 7). -/
abbrev State.widthsOk (s : State) : Prop :=
  s.pos < 2 ^ 36 ∧ s.si < 2 ^ 32 ∧ s.n < 2 ^ 32 ∧ s.sc ≤ 8 ∧ s.gc ≤ 7

/-- `STATUS` is one of the three reachable combinations, and an error is shown only with `DONE`
(10_state R23; R42 (a), (b), (c)). -/
abbrev State.statusOk (s : State) : Prop :=
  (s.phase.busy = true → s.done = false) ∧ (s.err ≠ .ok → s.done = true)

/-- The first `k` message bytes are below 128 (42_embed R120). -/
abbrev State.plainBelow (s : State) (k : Nat) : Prop := ∀ i < k, topBit (s.byteAt .min i) = false

/-- The accepted operands of a running `EMBED` (10_state R42 (d), (e)). -/
abbrev State.frameFits (s : State) : Prop := 1 ≤ s.msgLen ∧ 8 * s.msgLen + 8 ≤ s.cells

/-- The serializer is at position `POS`: `SC` bits of the current message byte are left in the top of
`SR` (40_serializer R93). -/
abbrev State.serializerOk (s : State) : Prop :=
  (s.pos + s.sc) % 8 = 0 ∧ s.sc ≤ 7 ∧ (0 < s.sc → s.sr = s.byteAt .min (s.pos / 8) <<< (s.pos % 8))

/-- What holds in each phase (10_state R42 (d) to (g)). -/
def State.phaseOk (s : State) : Prop :=
  match s.phase with
  | .ready => True
  | .eCheck => s.cells ≤ s.cfg.pixCells ∧ s.msgLen ≤ s.cfg.minBytes
  | .eScan =>
    s.cells ≤ s.cfg.pixCells ∧ s.msgLen ≤ s.cfg.minBytes ∧ s.frameFits ∧
    s.si ≤ s.msgLen ∧ s.plainBelow s.si
  | .eWrite =>
    s.cells ≤ s.cfg.pixCells ∧ s.msgLen ≤ s.cfg.minBytes ∧ s.frameFits ∧
    s.pos ≤ s.bitLen ∧ s.plainBelow s.msgLen ∧ s.serializerOk
  | .xRead =>
    s.cells ≤ s.cfg.pixCells ∧ s.pos ≤ s.cells ∧ s.gc = s.pos % 8 ∧ s.n = s.pos / 8 ∧
    s.g.toNat < 2 ^ s.gc

/-- The invariant that every step keeps (10_state R42). -/
def State.Inv (s : State) : Prop :=
  s.cfg.ok = true ∧ s.memOk ∧ s.widthsOk ∧ s.statusOk ∧ s.phaseOk

end Sys2Proof.Machine
end

