-- ==== Sys2Proof/Safety.lean ====
section
/-! DEFINITION. What a safe run is: the engine never stops while a command runs (44_command R158,
20_memory R57), and a step of the system stops only where the host makes a move that the spec gives no
meaning (20_memory R50, R53, R59). -/

namespace Sys2Proof.Machine

/-- The host's next action may be made now: it is well shaped, its offset exists, and it touches no
memory while the engine is BUSY (20_memory R53, R50, R59). -/
def State.hostMoveOk (s : State) : Bool :=
  match s.host with
  | [] => true
  | .regWrite off bytes _ :: _ => regAccessOk off bytes
  | .regRead off bytes :: _ => regAccessOk off bytes
  | .memWrite sp a _ :: _ => !s.phase.busy && decide (a < s.cfg.size sp)
  | .memRead sp a :: _ => !s.phase.busy && decide (a < s.cfg.size sp)
  | .reset :: _ => true
  | .wait :: _ => true
  | .readResult :: _ => !s.phase.busy
  | .engine :: _ => true

/-- A step is safe when it answers a next state. -/
def State.stepsOn (s : State) : Prop := ∃ t, step s = .next t

/-- The engine goes on: the running command's step answers a next state (44_command R158). -/
def State.engineGoesOn (s : State) : Prop := ∃ t, engineStep s = .next t

end Sys2Proof.Machine
end

