-- ==== Sys2Proof/WellFormed.lean ====
section
/-! DEFINITION. Well-formedness. A command word has no operand fields (30_encoding R71), so every
`Instr` is well formed; what can be ill formed is a host action: the shape of a register access
(20_memory R53) and the offset of a memory access (20_memory R50). -/

namespace Sys2Proof

/-- Every command is well formed: there is no field to check (30_encoding R71). -/
def Instr.wf : Instr → Bool
  | .embed => true
  | .extract => true

/-- A host action the spec gives a meaning to, on a block with these memory sizes. -/
def Machine.HostAction.wf (c : Config) : Machine.HostAction → Bool
  | .regWrite off bytes _ => Machine.regAccessOk off bytes
  | .regRead off bytes => Machine.regAccessOk off bytes
  | .memWrite sp a _ => decide (a < c.size sp)
  | .memRead sp a => decide (a < c.size sp)
  | .reset => true
  | .wait => true
  | .readResult => true
  | .engine => true

end Sys2Proof
end

