-- ==== Sys2Proof/Certificates/Slice0/Obligations.lean ====
section
/-! DEFINITION. The statements for the provers, from the numbered rules of the spec. Every statement
about a state holds for every configuration, every memory content and every value of the free-value
counter. `{ s with … }` on the right of an equation is the frame: every field it does not name is
unchanged. Where a statement speaks of `step`, the host's next action is the head of the list
`State.host`, the model's own form of the host (log entry 2). Where a statement speaks of `exec` in every
phase, what it says of a command in a phase of the other is the model's choice (log entry 10), and where
it speaks of `addr` in every state, so is the address of a position that does not exist (log
entry 19). -/

open Sys2Proof Sys2Proof.Machine

/-! ### Encoding -/

/-- 30_encoding R72: the opcode map. -/
def Obligations.CommandWordsDecode : Prop :=
  decode 0x00000001#32 = .legal .embed ∧ decode 0x00000002#32 = .legal .extract

/-- 30_encoding R74: compare the whole word with the two codes; anything else is illegal. -/
def Obligations.DecoderComparesWholeWord : Prop :=
  ∀ w : Word,
    (w = 0x00000001#32 → decode w = .legal .embed) ∧
    (w = 0x00000002#32 → decode w = .legal .extract) ∧
    (w ≠ 0x00000001#32 → w ≠ 0x00000002#32 → decode w = .illegal w)

/-- Encoding then decoding gives the command back, and a word that decodes is the encoding of what it
decodes to. -/
def Obligations.DecodeEncodeAgree : Prop :=
  (∀ i : Instr, i.wf = true → decode (encode i) = .legal i) ∧
  ∀ (w : Word) (i : Instr), decode w = .legal i → encode i = w

/-! ### Command issue -/

/-- 30_encoding R73, 60_exceptions R176: an illegal word completes at once with `InvalidOperation` and
changes nothing but `STATUS` (the host's action is used up). -/
def Obligations.IllegalWordRaisesInvalidOperation : Prop :=
  ∀ (s : State) (w : Word) (rest : List HostAction),
    s.phase = .ready → s.host = .regWrite 0x00 4 w :: rest →
    w ≠ 0x00000001#32 → w ≠ 0x00000002#32 →
    step s = .next { s with host := rest, done := true, err := .invalidOperation }

/-- 60_exceptions R177: operands that exceed the memories are refused at issue, before any memory
access; `EXTRACT` does not check `MLEN`. -/
def Obligations.OperandRangeRaisedAtIssue : Prop :=
  ∀ s : State, s.phase = .ready →
    (s.cells > s.cfg.pixCells ∨ s.msgLen > s.cfg.minBytes →
      exec .embed s = .next { s with done := true, err := .operandRange }) ∧
    (s.cells > s.cfg.pixCells →
      exec .extract s = .next { s with done := true, err := .operandRange })

/-- 44_command R156: dispatch of `EMBED`. -/
def Obligations.EmbedIssueDispatches : Prop :=
  ∀ s : State, s.phase = .ready → s.cells ≤ s.cfg.pixCells → s.msgLen ≤ s.cfg.minBytes →
    exec .embed s = .next { s with done := false, err := .ok, phase := .eCheck } ∧
    { s with done := false, err := .ok, phase := Phase.eCheck }.statusWord = 0x00000001#32

/-- 44_command R157: dispatch of `EXTRACT`. -/
def Obligations.ExtractIssueDispatches : Prop :=
  ∀ s : State, s.phase = .ready → s.cells ≤ s.cfg.pixCells →
    exec .extract s = .next
      { s with done := false, err := .ok, pos := 0, g := 0x00, gc := 0, n := 0, phase := .xRead } ∧
    { s with done := false, err := .ok, pos := 0, g := 0x00, gc := 0, n := 0,
             phase := Phase.xRead }.statusWord = 0x00000001#32

/-! ### The steps of `EMBED` -/

/-- 42_embed R116: the step of `E_CHECK`; the order of the two tests is fixed. -/
def Obligations.EmbedCheckStep : Prop :=
  ∀ s : State, s.phase = .eCheck →
    (s.msgLen = 0 →
      exec .embed s = .next { s with phase := .ready, done := true, err := .emptyMessage }) ∧
    (s.msgLen ≠ 0 → 8 * s.msgLen + 8 > s.cells →
      exec .embed s = .next { s with phase := .ready, done := true, err := .capacityExceeded }) ∧
    (s.msgLen ≠ 0 → 8 * s.msgLen + 8 ≤ s.cells →
      exec .embed s = .next { s with si := 0, phase := .eScan })

/-- 42_embed R119: the step of `E_SCAN`. -/
def Obligations.EmbedScanStep : Prop :=
  ∀ s : State, s.Inv → s.phase = .eScan →
    (s.si = s.msgLen →
      exec .embed s = .next { s with pos := 0, sc := 0, phase := .eWrite }) ∧
    (s.si ≠ s.msgLen → (s.byteAt .min s.si).getLsbD 7 = true →
      exec .embed s = .next { s with
        port := .read .min s.si :: s.port
        phase := .ready, done := true, err := .unsupportedCharacter }) ∧
    (s.si ≠ s.msgLen → (s.byteAt .min s.si).getLsbD 7 = false →
      exec .embed s = .next { s with port := .read .min s.si :: s.port, si := s.si + 1 })

/-- 42_embed R121: the step of `E_WRITE`, on a data cell and on the terminator cell. Exactly one cell
is read and written, at the address of the position; every other byte of `PIX` reads as before. -/
def Obligations.EmbedWriteStep : Prop :=
  ∀ s : State, s.Inv → s.phase = .eWrite →
    (s.pos < 8 * s.msgLen →
      ∃ t, exec .embed s = .next t ∧
        t.byteAt .pix (s.addr s.pos) =
          (s.byteAt .pix (s.addr s.pos) &&& 0xFE) ||| bitByte (s.bit s.pos) ∧
        (∀ a, a ≠ s.addr s.pos → t.byteAt .pix a = s.byteAt .pix a) ∧
        t = { s with pos := s.pos + 1, pixMem := t.pixMem, sr := t.sr, sc := t.sc, port := t.port } ∧
        ∃ reads, (reads = [] ∨ reads = [.read .min (s.pos / 8)]) ∧
          t.port = .write .pix (s.addr s.pos) :: .read .pix (s.addr s.pos) :: (reads ++ s.port)) ∧
    (s.pos = 8 * s.msgLen →
      ∃ t, exec .embed s = .next t ∧
        t.byteAt .pix (s.addr s.pos) = s.byteAt .pix (s.addr s.pos) ||| 0x01 ∧
        (∀ a, a ≠ s.addr s.pos → t.byteAt .pix a = s.byteAt .pix a) ∧
        t = { s with
          pos := s.pos + 1, pixMem := t.pixMem
          port := .write .pix (s.addr s.pos) :: .read .pix (s.addr s.pos) :: s.port
          phase := .ready, done := true, err := .ok })

/-- The frame of `EMBED` (42_embed R115, R123): what one step of it leaves unchanged, in every phase.
The one byte it may store to is the cell of the current position, and of that byte bits 7 to 1 stay. The
model's choices in it: in the phase of `EXTRACT` nothing changes (log entry 10), and a position that does
not exist, which only a state outside the invariant can hold, has the address that `State.addr` computes
(log entry 19). -/
def Obligations.EmbedFrame : Prop :=
  ∀ s t : State, exec .embed s = .next t →
    t.cfg = s.cfg ∧ t.height = s.height ∧ t.width = s.width ∧ t.channels = s.channels ∧
    t.mlen = s.mlen ∧ t.olen = s.olen ∧ t.g = s.g ∧ t.gc = s.gc ∧ t.n = s.n ∧
    t.minMem = s.minMem ∧ t.moutMem = s.moutMem ∧
    t.host = s.host ∧ t.seen = s.seen ∧ t.freeIdx = s.freeIdx ∧
    (s.phase ≠ .eWrite → t.pixMem = s.pixMem ∧ t.sr = s.sr) ∧
    (s.phase = .eWrite → ∀ a, a ≠ s.addr (if s.pos < s.bitLen then s.pos else s.bitLen) →
      t.byteAt .pix a = s.byteAt .pix a) ∧
    (∀ a, t.byteAt .pix a &&& 0xFE = s.byteAt .pix a &&& 0xFE) ∧
    (s.phase ≠ .eScan → s.phase ≠ .eWrite → t.pos = s.pos ∧ t.sc = s.sc ∧ t.port = s.port) ∧
    (s.phase ≠ .eCheck → s.phase ≠ .eScan → t.si = s.si) ∧
    (s.phase = .xRead → t = s) ∧
    (s.phase.busy = true → t.phase.busy = true → t.done = s.done ∧ t.err = s.err)

/-! ### The steps of `EXTRACT` -/

/-- 43_extract R137: the step of `X_READ`, its four branches. -/
def Obligations.ExtractReadStep : Prop :=
  ∀ s : State, s.Inv → s.phase = .xRead →
    (s.pos = s.cells →
      exec .extract s = .next { s with
        olen := 0, phase := .ready, done := true, err := .noTerminatorFound }) ∧
    (s.pos ≠ s.cells → s.gc < 7 →
      exec .extract s = .next { s with
        port := .read .pix (s.addr s.pos) :: s.port
        pos := s.pos + 1
        g := (s.g <<< 1) ||| (s.byteAt .pix (s.addr s.pos) &&& 0x01)
        gc := s.gc + 1 }) ∧
    (s.pos ≠ s.cells → ¬ s.gc < 7 →
      ((s.g <<< 1) ||| (s.byteAt .pix (s.addr s.pos) &&& 0x01)).getLsbD 7 = true →
      exec .extract s = .next { s with
        port := .read .pix (s.addr s.pos) :: s.port
        pos := s.pos + 1
        olen := BitVec.ofNat 32 s.n
        phase := .ready, done := true, err := .ok }) ∧
    (s.pos ≠ s.cells → ¬ s.gc < 7 →
      ((s.g <<< 1) ||| (s.byteAt .pix (s.addr s.pos) &&& 0x01)).getLsbD 7 = false →
      ∃ t, exec .extract s = .next t ∧
        t.byteAt .mout s.n = (s.g <<< 1) ||| (s.byteAt .pix (s.addr s.pos) &&& 0x01) ∧
        (∀ a, a ≠ s.n → t.byteAt .mout a = s.byteAt .mout a) ∧
        t = { s with
          moutMem := t.moutMem
          port := .write .mout s.n :: .read .pix (s.addr s.pos) :: s.port
          pos := s.pos + 1, n := s.n + 1, g := 0x00, gc := 0 })

/-- The frame of `EXTRACT` (43_extract R135): what one step of it leaves unchanged, in every phase.
The one byte it may store to is `MOUT[N]`, in the step that completes a group. That in a phase of `EMBED`
nothing changes is the model's choice (log entry 10). -/
def Obligations.ExtractFrame : Prop :=
  ∀ s t : State, exec .extract s = .next t →
    t.cfg = s.cfg ∧ t.height = s.height ∧ t.width = s.width ∧ t.channels = s.channels ∧
    t.mlen = s.mlen ∧ t.si = s.si ∧ t.sr = s.sr ∧ t.sc = s.sc ∧
    t.pixMem = s.pixMem ∧ t.minMem = s.minMem ∧
    t.host = s.host ∧ t.seen = s.seen ∧ t.freeIdx = s.freeIdx ∧
    (s.phase ≠ .xRead ∨ s.gc < 7 ∨ t.phase = .ready → t.moutMem = s.moutMem) ∧
    (∀ a, a ≠ s.n → t.byteAt .mout a = s.byteAt .mout a) ∧
    (s.phase ≠ .xRead ∨ t.phase = .xRead → t.olen = s.olen) ∧
    (s.phase ≠ .xRead → t.port = s.port) ∧
    (s.phase = .eCheck ∨ s.phase = .eScan ∨ s.phase = .eWrite → t = s) ∧
    (s.phase.busy = true → t.phase.busy = true → t.done = s.done ∧ t.err = s.err)

/-- 43_extract R148: every byte a step of `EXTRACT` writes in `MOUT` is below 128, and so is every
byte of the message of a successful `EXTRACT`. In a state outside the invariant the address of a position
that does not exist is the model's choice (log entry 19). -/
def Obligations.ExtractedBytesBelow128 : Prop :=
  (∀ (s t : State) (a : Nat), exec .extract s = .next t →
    t.byteAt .mout a ≠ s.byteAt .mout a ∨
      t.port = .write .mout a :: .read .pix (s.addr s.pos) :: s.port →
    (t.byteAt .mout a).toNat < 128) ∧
  ∀ (s t : State) (i : Nat), s.Inv → s.phase = .ready →
    execTimes .extract (s.extractSteps + 1) s = .next t → t.err = .ok → i < t.olen.toNat →
    (t.byteAt .mout i).toNat < 128

/-- 43_extract R143: `EXTRACT` never writes `PIX`, and neither reads nor writes `MIN` or `MLEN`. That it
has no effect in a phase of `EMBED` is the model's choice (log entry 10). -/
def Obligations.ExtractIgnoresMessageOperands : Prop :=
  ∀ (s t : State) (m : Memory) (v : Word), exec .extract s = .next t →
    t.pixMem = s.pixMem ∧ t.minMem = s.minMem ∧ t.mlen = s.mlen ∧
    exec .extract { s with minMem := m, mlen := v } = .next { t with minMem := m, mlen := v }

/-- Only bit 0 of a cell matters to `EXTRACT` (41_traversal R107): with another `PIX` of the same LSBs
every step does the same. In a phase of `EMBED`, and at a position that does not exist, that is of the
model's choices (log entries 10, 19). -/
def Obligations.ExtractSeesOnlyLsbs : Prop :=
  ∀ (s t : State) (m : Memory),
    (∀ a, { s with pixMem := m }.byteAt .pix a &&& 0x01 = s.byteAt .pix a &&& 0x01) →
    exec .extract s = .next t →
    exec .extract { s with pixMem := m } = .next { t with pixMem := m }

/-! ### Cells, bits and the serializer -/

/-- 41_traversal R110: the laws of the cell primitives. -/
def Obligations.CellUpdateLaws : Prop :=
  ∀ (v : Byte) (b : Bool),
    (withLsb v b >>> 1 = v >>> 1 ∧ (withLsb v b).getLsbD 0 = b) ∧
    (forceLsb v >>> 1 = v >>> 1 ∧ (forceLsb v).getLsbD 0 = true) ∧
    (withLsb v b = v ∨
      v.getLsbD 0 = false ∧ b = true ∧ (withLsb v b).toNat = v.toNat + 1 ∨
      v.getLsbD 0 = true ∧ b = false ∧ (withLsb v b).toNat + 1 = v.toNat) ∧
    (lsbOf (withLsb v b) = b ∧ lsbOf (forceLsb v) = true ∧ forceLsb v = withLsb v true) ∧
    (v.toNat % 2 = (v &&& 0x01).toNat)

/-- 43_extract R138: each bit is shifted in at the low end, which drops no 1 bit of a group in
progress; eight bits shifted in from `G` = 0 have the value the rule gives, and the eight bits of a
byte, first bit 7, give the byte. -/
def Obligations.GroupBitsRebuildByte : Prop :=
  (∀ (g : Byte) (b : Bool), pushBit g b = (g <<< 1) ||| bitByte b ∧
    (g.toNat < 128 → (pushBit g b).toNat = 2 * g.toNat + b.toNat)) ∧
  (∀ b0 b1 b2 b3 b4 b5 b6 b7 : Bool,
    ([b0, b1, b2, b3, b4, b5, b6, b7].foldl pushBit 0).toNat =
      b0.toNat * 128 + b1.toNat * 64 + b2.toNat * 32 + b3.toNat * 16 + b4.toNat * 8 + b5.toNat * 4 +
        b6.toNat * 2 + b7.toNat) ∧
  ∀ v : Byte, (List.range 8).foldl (fun g t => pushBit g (bitFromTop v t)) 0 = v

/-- 40_serializer R93: what one delivery of the shift-register form does at a byte boundary and inside
a byte; and it delivers `bit(j)` and stays in step with the position, changing nothing but `SR`, `SC`
and what the monitor sees. At positions from `8·MLEN` on, where the spec leaves `bit(j)` undefined and
the engine never asks, it speaks of the model's choice (log entry 18). -/
def Obligations.SerializerDeliversBitstream : Prop :=
  (∀ (s : State) (j : Nat) (rest : Bool → State → Res),
    (s.sc = 0 → j / 8 < s.cfg.minBytes →
      nextBit s j rest = rest ((s.byteAt .min (j / 8)).getLsbD 7) { s with
        sr := s.byteAt .min (j / 8) <<< 1, sc := 7, port := .read .min (j / 8) :: s.port }) ∧
    (s.sc ≠ 0 →
      nextBit s j rest = rest (s.sr.getLsbD 7) { s with sr := s.sr <<< 1, sc := s.sc - 1 })) ∧
  ∀ s : State, s.serializerOk → s.pos / 8 < s.cfg.minBytes →
    ∃ u : State,
      (∀ rest, nextBit s s.pos rest = rest (s.bit s.pos) u) ∧
      { u with pos := s.pos + 1 }.serializerOk ∧
      u = { s with sr := u.sr, sc := u.sc, port := u.port } ∧
      u.port = if s.pos % 8 = 0 then .read .min (s.pos / 8) :: s.port else s.port

/-! ### The Traversal -/

/-- 41_traversal R101: position to triple and back. -/
def Obligations.PositionAndTripleCorrespond : Prop :=
  (∀ h w c p, p < h * w * c →
    cellAt h w p = ⟨p / (h * w), p % (h * w) / w, p % w⟩ ∧ 0 < h ∧ 0 < w ∧ 0 < c ∧
    (cellAt h w p).ch < c ∧ (cellAt h w p).row < h ∧ (cellAt h w p).col < w ∧
    positionOf h w (cellAt h w p) = p) ∧
  ∀ h w c (t : Triple), t.ch < c → t.row < h → t.col < w →
    positionOf h w t < h * w * c ∧ cellAt h w (positionOf h w t) = t

/-- 41_traversal R104: `addr` is a bijection from the positions onto the offsets of the buffer. -/
def Obligations.AddressesArePermutation : Prop :=
  ∀ h w c,
    (∀ p, p < h * w * c → addrAt h w c p < h * w * c) ∧
    (∀ p q, p < h * w * c → q < h * w * c → addrAt h w c p = addrAt h w c q → p = q) ∧
    ∀ a, a < h * w * c → ∃ p, p < h * w * c ∧ addrAt h w c p = a

/-- 41_traversal R105: the cursor form agrees with `cell(p)`, and is exhausted after all positions
(stated for nonzero `H` and `W`: with `H·W = 0` there are no positions and no advance is made,
log entry 15). -/
def Obligations.CursorFormAgrees : Prop :=
  (∀ h w c p, p < h * w * c → cursorAt h w p = cellAt h w p) ∧
  ∀ h w c, 0 < h → 0 < w → cursorAt h w (h * w * c) = ⟨c, 0, 0⟩

/-- 41_traversal R106: the stride pattern. At the last position of the buffer the last equation speaks of
the next address, which no rule gives: that one value is the model's choice (log entry 19). -/
def Obligations.AddressStridePattern : Prop :=
  ∀ h w c p, p < h * w * c →
    addrAt h w c p = p % (h * w) * c + p / (h * w) ∧
    ((p + 1) % (h * w) ≠ 0 → addrAt h w c (p + 1) = addrAt h w c p + c) ∧
    ((p + 1) % (h * w) = 0 →
      addrAt h w c p = h * w * c - c + p / (h * w) ∧
      addrAt h w c (p + 1) = p / (h * w) + 1)

/-! ### Registers, memories and the host -/

/-- 10_state R23: the fields of `STATUS`, the reserved bits 0; and the codes of the error kinds
(60_exceptions R171), the reserved codes 7 to 15 never among them. -/
def Obligations.StatusWordFields : Prop :=
  (ErrorKind.ok.code = 0 ∧ ErrorKind.emptyMessage.code = 1 ∧ ErrorKind.capacityExceeded.code = 2 ∧
    ErrorKind.unsupportedCharacter.code = 3 ∧ ErrorKind.noTerminatorFound.code = 4 ∧
    ErrorKind.invalidOperation.code = 5 ∧ ErrorKind.operandRange.code = 6) ∧
  ∀ s : State,
    (s.statusWord.extractLsb' 4 4).toNat ≤ 6 ∧
    (s.statusWord.getLsbD 0 = true ↔ s.phase ≠ .ready) ∧
    s.statusWord.getLsbD 1 = s.done ∧
    s.statusWord.extractLsb' 2 2 = 0 ∧
    s.statusWord.extractLsb' 4 4 = s.err.code ∧
    s.statusWord.extractLsb' 8 24 = 0

/-- The register map while READY (10_state R21, R22, R24 to R28): what a read of each offset returns;
reading changes no register. -/
def Obligations.ReadyRegisterReads : Prop :=
  ∀ (s : State) (off : Nat) (v : Word) (rest : List HostAction),
    s.phase = .ready → s.host = .regRead off 4 :: rest →
    (off = 0x00 ∧ v = 0) ∨ (off = 0x04 ∧ v = s.statusWord) ∨ (off = 0x08 ∧ v = s.height) ∨
      (off = 0x0C ∧ v = s.width) ∨ (off = 0x10 ∧ v = s.channels) ∨ (off = 0x14 ∧ v = s.mlen) ∨
      (off = 0x18 ∧ v = s.olen) ∨ (0x1C ≤ off ∧ off % 4 = 0 ∧ v = 0) →
    step s = .next { s with host := rest, seen := .reg off v :: s.seen }

/-- The register map while READY (10_state R21; 44_command R161): any value is stored in the operand
registers; writes to `STATUS`, `OLEN` and offsets that are no register are ignored. -/
def Obligations.ReadyRegisterWrites : Prop :=
  ∀ (s : State) (off : Nat) (v : Word) (rest : List HostAction),
    s.phase = .ready → s.host = .regWrite off 4 v :: rest →
    (off = 0x08 → step s = .next { s with host := rest, height := v }) ∧
    (off = 0x0C → step s = .next { s with host := rest, width := v }) ∧
    (off = 0x10 → step s = .next { s with host := rest, channels := v }) ∧
    (off = 0x14 → step s = .next { s with host := rest, mlen := v }) ∧
    (off = 0x04 ∨ off = 0x18 ∨ (0x1C ≤ off ∧ off % 4 = 0) → step s = .next { s with host := rest })

/-- 44_command R162: what each host action does while BUSY. Register writes are ignored, `STATUS`
reads as BUSY alone, `CMD` as 0, a reset resets, memory accesses are refused. The model's choices in
it: `OLEN` reads as a free value counted by `freeIdx`, while an `EMBED` runs too (log entry 4); a
waiting host and the marker `engine` give the engine its step (log entry 2); `readResult` is refused
as the memory accesses it stands for (log entry 13). -/
def Obligations.BusyHostActions : Prop :=
  ∀ (s : State) (x : HostAction) (rest : List HostAction),
    s.Inv → s.phase ≠ .ready → s.host = x :: rest →
    (∀ off v, x = .regWrite off 4 v → off % 4 = 0 → step s = .next { s with host := rest }) ∧
    (∀ off v, x = .regRead off 4 →
      (off = 0x00 ∧ v = 0) ∨ (off = 0x04 ∧ v = 0x00000001#32) ∨ (off = 0x08 ∧ v = s.height) ∨
        (off = 0x0C ∧ v = s.width) ∨ (off = 0x10 ∧ v = s.channels) ∨ (off = 0x14 ∧ v = s.mlen) ∨
        (0x1C ≤ off ∧ off % 4 = 0 ∧ v = 0) →
      step s = .next { s with host := rest, seen := .reg off v :: s.seen }) ∧
    (x = .regRead 0x18 4 →
      step s = .next { s with
        host := rest
        seen := .reg 0x18 (Config.busyOlen s.freeIdx) :: s.seen
        freeIdx := s.freeIdx + 1 }) ∧
    (x = .reset → step s = .next (resetBlock { s with host := rest })) ∧
    (∀ sp a v, x = .memWrite sp a v ∨ x = .memRead sp a → step s = .refused .memoryWhileBusy) ∧
    (x = .wait → step s = engineStep s) ∧
    (x = .engine → step s = engineStep { s with host := rest }) ∧
    (x = .readResult → step s = .refused .memoryWhileBusy)

/-- 20_memory R53: a register access that is narrower or misaligned is refused, in every phase. -/
def Obligations.PartialRegisterAccessRefused : Prop :=
  ∀ (s : State) (off bytes : Nat) (v : Word) (rest : List HostAction),
    bytes ≠ 4 ∨ off % 4 ≠ 0 →
    s.host = .regWrite off bytes v :: rest ∨ s.host = .regRead off bytes :: rest →
    step s = .refused .registerAccessShape

/-- Host memory accesses while READY (44_command R161, 20_memory R59): a read returns the byte held,
a write stores its byte and changes no other byte of any memory. At an offset that does not exist
(20_memory R50) the model faults: the model's choice (log entry 7). -/
def Obligations.ReadyMemoryAccess : Prop :=
  ∀ (s : State) (sp : Space) (a : Nat) (v : Byte) (rest : List HostAction), s.phase = .ready →
    (s.host = .memRead sp a :: rest → a < s.cfg.size sp →
      step s = .next { s with host := rest, seen := .byte sp a (s.byteAt sp a) :: s.seen }) ∧
    (s.host = .memWrite sp a v :: rest → a < s.cfg.size sp →
      ∃ t, step s = .next t ∧ t.byteAt sp a = v ∧
        (∀ q b, q ≠ sp ∨ b ≠ a → t.byteAt q b = s.byteAt q b) ∧
        t = { s with
          host := rest, pixMem := t.pixMem, minMem := t.minMem, moutMem := t.moutMem }) ∧
    (s.host = .memRead sp a :: rest ∨ s.host = .memWrite sp a v :: rest → ¬ a < s.cfg.size sp →
      step s = .fault (.noSuchLocation sp a))

/-- 70_reset_and_hazards R195: reset, in every phase: every register gets its value of 10_state R40,
no memory is written, and the engine then idles. -/
def Obligations.ResetClearsRegisters : Prop :=
  ∀ (s : State) (rest : List HostAction), s.host = .reset :: rest →
    ∃ t, step s = .next t ∧
      t = { s with
        host := rest, phase := .ready, done := false, err := .ok, height := 0, width := 0,
        channels := 0, mlen := 0, olen := 0, pos := 0, si := 0, sr := 0, sc := 0, g := 0, gc := 0,
        n := 0 } ∧
      t.statusWord = 0 ∧ engineStep t = .next t

/-- 10_state R40: the state after a power-on reset: the registers, the memories, which hold any bytes
(free values: `Config.powerOnByte` is the model's own device for `unspecified`, log entry 3), and the
engine, which does nothing until the host issues a command. -/
def Obligations.PowerOnState : Prop :=
  ∀ c : Config,
    (State.powerOn c).phase = .ready ∧ (State.powerOn c).statusWord = 0x00000000#32 ∧
    (State.powerOn c).height = 0 ∧ (State.powerOn c).width = 0 ∧ (State.powerOn c).channels = 0 ∧
    (State.powerOn c).mlen = 0 ∧ (State.powerOn c).olen = 0 ∧
    (State.powerOn c).pos = 0 ∧ (State.powerOn c).si = 0 ∧ (State.powerOn c).sc = 0 ∧
    (State.powerOn c).gc = 0 ∧ (State.powerOn c).n = 0 ∧
    (State.powerOn c).sr = 0x00 ∧ (State.powerOn c).g = 0x00 ∧
    (∀ sp a, (State.powerOn c).byteAt sp a = Config.powerOnByte sp a) ∧
    engineStep (State.powerOn c) = .next (State.powerOn c) ∧
    State.reset = State.powerOn State.reset.cfg

/-! ### The step of the system -/

/-- A step runs the decoded command: a READY block whose host writes a legal word to `CMD` takes one
step of that command (44_command R155), and so does the very next step after `withFetchWord` (the
model's way to place a command, log entry 5). -/
def Obligations.StepIssuesDecodedCommand : Prop :=
  ∀ (s : State) (w : Word) (i : Instr), decode w = .legal i →
    (∀ rest, s.phase = .ready → s.host = .regWrite 0x00 4 w :: rest →
      step s = exec i { s with host := rest }) ∧
    step (s.withFetchWord 32 w.toNat) = exec i { s with phase := .ready }

/-- A step of a BUSY block is a step of the running command, where the host does nothing, waits, or
lets the engine step (44_command R158, R163). When the engine steps is the model's choice
(log entry 2). -/
def Obligations.StepRunsEngine : Prop :=
  ∀ (s : State) (i : Instr), s.phase.command = some i →
    (s.host = [] → step s = exec i s) ∧
    (∀ rest, s.host = .wait :: rest → step s = exec i s) ∧
    ∀ rest, s.host = .engine :: rest → step s = exec i { s with host := rest }

/-- A READY block (60_exceptions R192, 44_command R158, R163): it idles with no host action, a waiting
host goes on when `DONE` = 1 and polls again when it is not, the engine has no step, and the end of the
macro `extract` (30_encoding R84) becomes the read of `OLEN` and of `MOUT[0 .. OLEN-1]` when `ERR` = 0,
and nothing otherwise. The model's choices in it: a block with no host action repeats its state (log
entry 2), and that end is expanded when it is reached (log entry 13). -/
def Obligations.ReadyBlockIdles : Prop :=
  ∀ s : State, s.phase = .ready →
    (s.host = [] → step s = .next s) ∧
    (∀ rest, s.host = .wait :: rest → s.done = true → step s = .next { s with host := rest }) ∧
    (∀ rest, s.host = .wait :: rest → s.done = false → step s = .next s) ∧
    (∀ rest, s.host = .engine :: rest → step s = .next { s with host := rest }) ∧
    ∀ rest, s.host = .readResult :: rest →
      (s.err = .ok → step s = .next { s with
        host := .regRead 0x18 4 :: ((List.range s.olen.toNat).map (.memRead .mout) ++ rest) }) ∧
      (s.err ≠ .ok → step s = .next { s with host := rest })

/-! ### Invariants -/

/-- The state after power-on meets the invariant (10_state R40, R42), for every allowed size. -/
def Obligations.PowerOnMeetsInvariant : Prop :=
  (∀ c : Config, c.ok = true → (State.powerOn c).Inv) ∧ State.reset.Inv

/-- The invariants of 10_state R42 are kept by every step. -/
def Obligations.StepKeepsInvariant : Prop :=
  ∀ s t : State, s.Inv → step s = .next t → t.Inv

/-- 44_command R158, 20_memory R57: a BUSY engine always has a next state; it never faults and no
offset it uses is out of range. -/
def Obligations.RunningEngineNeverStops : Prop :=
  ∀ s : State, s.Inv → s.phase ≠ .ready → s.engineGoesOn

/-- The system stops exactly where the host makes a move the spec gives no meaning
(20_memory R50, R53, R59). The model's choices in it: an offset that does not exist stops (log
entry 7), and so does `readResult` while BUSY (log entry 13). -/
def Obligations.StopsOnlyOnIllegalHostMove : Prop :=
  ∀ s : State, s.Inv → (s.stepsOn ↔ s.hostMoveOk = true)

/-- 44_command R159: all the transitions of `PHASE`, with when each is taken. From READY to READY a
written command word is illegal or its operands are out of range, and no host action but a command
write and a reset changes `DONE` and `ERR` (R161). A phase that stays what it is either saw no engine
step or moved on by one byte or cell. -/
def Obligations.PhaseGraph : Prop :=
  ∀ s t : State, s.Inv → step s = .next t →
    match s.phase, t.phase with
    | .ready, .ready =>
      (∀ w rest, s.host = .regWrite 0x00 4 w :: rest → t.done = true ∧
        (w ≠ 0x00000001#32 ∧ w ≠ 0x00000002#32 ∧ t.err = .invalidOperation ∨
          w = 0x00000001#32 ∧ (s.cells > s.cfg.pixCells ∨ s.msgLen > s.cfg.minBytes) ∧
            t.err = .operandRange ∨
          w = 0x00000002#32 ∧ s.cells > s.cfg.pixCells ∧ t.err = .operandRange)) ∧
      ((∀ w rest, s.host ≠ .regWrite 0x00 4 w :: rest) → s.host.head? ≠ some .reset →
        t.done = s.done ∧ t.err = s.err)
    | .ready, .eCheck =>
      (∃ rest, s.host = .regWrite 0x00 4 0x00000001#32 :: rest) ∧
        s.cells ≤ s.cfg.pixCells ∧ s.msgLen ≤ s.cfg.minBytes
    | .ready, .eScan => False
    | .ready, .eWrite => False
    | .ready, .xRead =>
      (∃ rest, s.host = .regWrite 0x00 4 0x00000002#32 :: rest) ∧ s.cells ≤ s.cfg.pixCells
    | .eCheck, .ready =>
      s.host.head? = some .reset ∨ s.msgLen = 0 ∧ t.err = .emptyMessage ∨
        s.msgLen ≠ 0 ∧ 8 * s.msgLen + 8 > s.cells ∧ t.err = .capacityExceeded
    | .eCheck, .eCheck => t = { s with host := t.host, seen := t.seen, freeIdx := t.freeIdx }
    | .eCheck, .eScan => s.msgLen ≠ 0 ∧ 8 * s.msgLen + 8 ≤ s.cells
    | .eCheck, .eWrite => False
    | .eCheck, .xRead => False
    | .eScan, .ready =>
      s.host.head? = some .reset ∨
        s.si < s.msgLen ∧ 128 ≤ (s.byteAt .min s.si).toNat ∧ t.err = .unsupportedCharacter
    | .eScan, .eCheck => False
    | .eScan, .eScan =>
      t = { s with host := t.host, seen := t.seen, freeIdx := t.freeIdx } ∨
        s.si < s.msgLen ∧ (s.byteAt .min s.si).toNat < 128 ∧ t.si = s.si + 1
    | .eScan, .eWrite => s.si = s.msgLen
    | .eScan, .xRead => False
    | .eWrite, .ready => s.host.head? = some .reset ∨ s.pos = 8 * s.msgLen ∧ t.err = .ok
    | .eWrite, .eCheck => False
    | .eWrite, .eScan => False
    | .eWrite, .eWrite =>
      t = { s with host := t.host, seen := t.seen, freeIdx := t.freeIdx } ∨
        s.pos < 8 * s.msgLen ∧ t.pos = s.pos + 1
    | .eWrite, .xRead => False
    | .xRead, .ready =>
      s.host.head? = some .reset ∨ s.pos = s.cells ∧ t.err = .noTerminatorFound ∨
        s.pos < s.cells ∧ s.pos % 8 = 7 ∧
          ((s.g <<< 1) ||| (s.byteAt .pix (s.addr s.pos) &&& 0x01)).getLsbD 7 = true ∧
          t.err = .ok
    | .xRead, .eCheck => False
    | .xRead, .eScan => False
    | .xRead, .eWrite => False
    | .xRead, .xRead =>
      t = { s with host := t.host, seen := t.seen, freeIdx := t.freeIdx } ∨
        s.pos < s.cells ∧ t.pos = s.pos + 1 ∧
          (s.pos % 8 = 7 →
            ((s.g <<< 1) ||| (s.byteAt .pix (s.addr s.pos) &&& 0x01)).getLsbD 7 = false)

/-- The operands and the message cannot change while a command runs (10_state R42 (h), 20_memory R63):
no step of a BUSY block but a reset changes the operand registers, and none at all changes `MIN`. -/
def Obligations.OperandsFixedWhileBusy : Prop :=
  ∀ s t : State, s.phase ≠ .ready → step s = .next t →
    t.cfg = s.cfg ∧ t.minMem = s.minMem ∧
    (s.host.head? ≠ some .reset →
      t.height = s.height ∧ t.width = s.width ∧ t.channels = s.channels ∧ t.mlen = s.mlen)

/-! ### Whole commands -/

/-- 44_command R166: every command ends, with `DONE` = 1, after exactly the counted steps
(42_embed R131, 43_extract R151), and the engine is BUSY until then. -/
def Obligations.EveryCommandEnds : Prop :=
  ∀ s : State, s.Inv → s.phase = .ready →
    ((∃ t, execTimes .embed (s.embedSteps + 1) s = .next t ∧ t.phase = .ready ∧ t.done = true) ∧
      (∀ k, k < s.embedSteps → ∃ u, execTimes .embed (k + 1) s = .next u ∧ u.phase ≠ .ready) ∧
      s.embedSteps ≤ 9 * s.msgLen + 3) ∧
    ((∃ t, execTimes .extract (s.extractSteps + 1) s = .next t ∧ t.phase = .ready ∧
        t.done = true) ∧
      (∀ k, k < s.extractSteps → ∃ u, execTimes .extract (k + 1) s = .next u ∧ u.phase ≠ .ready) ∧
      s.extractSteps ≤ s.cells + 1)

/-- 42_embed R125: a failing `EMBED` reports the first of its errors in the order of 60_exceptions R179
and leaves every memory and every register but `STATUS` and `SI` as at issue. -/
def Obligations.FailedEmbedLeavesNoTrace : Prop :=
  ∀ (s : State) (e : ErrorKind), s.Inv → s.phase = .ready → s.embedError = some e →
    ∃ t, execTimes .embed (s.embedSteps + 1) s = .next t ∧
      t = { s with done := true, err := e, si := t.si, port := t.port }

/-- 42_embed R124: what a successful `EMBED` leaves. -/
def Obligations.EmbedWritesFrame : Prop :=
  ∀ s : State, s.Inv → s.phase = .ready →
    s.cells ≤ s.cfg.pixCells → s.msgLen ≤ s.cfg.minBytes → s.msgLen ≠ 0 →
    8 * s.msgLen + 8 ≤ s.cells → (∀ i, i < s.msgLen → (s.byteAt .min i).toNat < 128) →
    ∃ t, execTimes .embed (9 * s.msgLen + 4) s = .next t ∧
      t.statusWord = 0x00000002#32 ∧
      (∀ p, p < 8 * s.msgLen →
        t.byteAt .pix (s.addr p) = (s.byteAt .pix (s.addr p) &&& 0xFE) ||| bitByte (s.bit p)) ∧
      t.byteAt .pix (s.addr (8 * s.msgLen)) = s.byteAt .pix (s.addr (8 * s.msgLen)) ||| 0x01 ∧
      (∀ a, (∀ p, p ≤ 8 * s.msgLen → a ≠ s.addr p) → t.byteAt .pix a = s.byteAt .pix a) ∧
      t = { s with
        done := true, err := .ok, pixMem := t.pixMem
        pos := t.pos, si := t.si, sr := t.sr, sc := t.sc, port := t.port }

/-- 43_extract R146: the big-step meaning of `EXTRACT`. Its failing case keeps the by-product in
`MOUT` that R142 and R146 give; another implementation may leave any value there (R152), so that
clause speaks of the reference engine (log entry 8). -/
def Obligations.ExtractBigStep : Prop :=
  ∀ s : State, s.Inv → s.phase = .ready →
    (s.cells > s.cfg.pixCells →
      exec .extract s = .next { s with done := true, err := .operandRange }) ∧
    (s.cells ≤ s.cfg.pixCells → (∀ k, k < s.groups → s.lsbAt (8 * k) = false) →
      ∃ t, execTimes .extract (s.cells + 2) s = .next t ∧
        (∀ i, i < s.groups → t.byteAt .mout i = s.groupVal i) ∧
        (∀ i, s.groups ≤ i → t.byteAt .mout i = s.byteAt .mout i) ∧
        t = { s with
          done := true, err := .noTerminatorFound, olen := 0, moutMem := t.moutMem
          pos := s.cells, g := t.g, gc := t.gc, n := t.n, port := t.port }) ∧
    (∀ k, s.cells ≤ s.cfg.pixCells → k < s.groups → s.lsbAt (8 * k) = true →
      (∀ j, j < k → s.lsbAt (8 * j) = false) →
      ∃ t, execTimes .extract (8 * (k + 1) + 1) s = .next t ∧
        t.olen.toNat = k ∧
        (∀ i, i < k → t.byteAt .mout i = s.groupVal i) ∧
        (∀ i, k ≤ i → t.byteAt .mout i = s.byteAt .mout i) ∧
        t = { s with
          done := true, err := .ok, olen := t.olen, moutMem := t.moutMem
          pos := 8 * (k + 1), g := t.g, gc := t.gc, n := t.n, port := t.port })

/-- 42_embed R128: the round trip. Whatever the host does between the two commands that keeps the
dimensions and every byte that `PIX` reads as, a reload of the same bytes among it
(70_reset_and_hazards R203), `EXTRACT` recovers the message that a successful `EMBED` hid. -/
def Obligations.EmbedExtractRoundTrip : Prop :=
  ∀ s t t' : State, s.Inv → s.phase = .ready →
    execTimes .embed (s.embedSteps + 1) s = .next t → t.err = .ok →
    t'.Inv → t'.phase = .ready → t'.cfg = t.cfg → (∀ a, t'.byteAt .pix a = t.byteAt .pix a) →
    t'.height = t.height → t'.width = t.width → t'.channels = t.channels →
    ∃ u, execTimes .extract (8 * (s.msgLen + 1) + 1) t' = .next u ∧
      u.phase = .ready ∧ u.done = true ∧ u.err = .ok ∧ u.olen = s.mlen ∧
      ∀ i, i < s.msgLen → u.byteAt .mout i = s.byteAt .min i

/-- 42_embed R130: the memory accesses of an `EMBED`, successful or failed, in order. That the write
pass reads each message byte once is the model's choice of the serializer's form (log entry 11). -/
def Obligations.EmbedAccessOrder : Prop :=
  ∀ s t : State, s.Inv → s.phase = .ready → execTimes .embed (s.embedSteps + 1) s = .next t →
    t.port = s.embedTrace.reverse ++ s.port

/-- 43_extract R151: the memory accesses of an `EXTRACT`, successful or failed, in order (the writes of a
failing one are the reference engine's by-product, log entry 8). -/
def Obligations.ExtractAccessOrder : Prop :=
  ∀ s t : State, s.Inv → s.phase = .ready → execTimes .extract (s.extractSteps + 1) s = .next t →
    t.port = s.extractTrace.reverse ++ s.port

/-- `EMBED` twice with the same operands: the second leaves `PIX` as the first left it
(42_embed R129 (i)). -/
def Obligations.EmbedTwiceLeavesSameBuffer : Prop :=
  ∀ s t : State, s.Inv → s.phase = .ready →
    execTimes .embed (s.embedSteps + 1) s = .next t →
    ∃ u, execTimes .embed (t.embedSteps + 1) t = .next u ∧ u.err = t.err ∧
      ∀ a, u.byteAt .pix a = t.byteAt .pix a

/-- No command's outcome depends on what an internal register held before its issue (10_state R42, last
sentence): with other values there, every later state differs in internal registers alone, which the
host cannot see (log entry 9). -/
def Obligations.InternalRegistersDoNotMatter : Prop :=
  ∀ (i : Instr) (s t : State) (k pos si sc gc n : Nat) (sr g : Byte), s.phase = .ready →
    execTimes i (k + 1) s = .next t →
    ∃ u, execTimes i (k + 1)
        { s with pos := pos, si := si, sr := sr, sc := sc, g := g, gc := gc, n := n } = .next u ∧
      u = { t with
        pos := u.pos, si := u.si, sr := u.sr, sc := u.sc, g := u.g, gc := u.gc, n := u.n }

/-- 41_traversal R111: with a dimension 0 no cell is accessed; `EMBED` fails its check and `EXTRACT` is
exhausted at its first step. -/
def Obligations.EmptyTraversalFails : Prop :=
  ∀ s : State, s.phase = .ready → s.height = 0 ∨ s.width = 0 ∨ s.channels = 0 →
    (s.msgLen = 0 →
      execTimes .embed 2 s = .next { s with done := true, err := .emptyMessage }) ∧
    (s.msgLen ≠ 0 → s.msgLen ≤ s.cfg.minBytes →
      execTimes .embed 2 s = .next { s with done := true, err := .capacityExceeded }) ∧
    execTimes .extract 2 s = .next { s with
      done := true, err := .noTerminatorFound, olen := 0, pos := 0, g := 0, gc := 0, n := 0 }
end

