-- ==== Sys2Proof/Laws/State.lean ====
section
/-! SUPPORT. One lemma per field of `State` and per named update of it, so that no proof unfolds a record
update, and what the updates leave of the derived operands and of the memories. -/

namespace Sys2Proof.Machine

section setMem

variable (s : State) (sp : Space) (m : Memory)

@[simp] theorem setMem_cfg : (s.setMem sp m).cfg = s.cfg := by cases sp <;> rfl
@[simp] theorem setMem_phase : (s.setMem sp m).phase = s.phase := by cases sp <;> rfl
@[simp] theorem setMem_done : (s.setMem sp m).done = s.done := by cases sp <;> rfl
@[simp] theorem setMem_err : (s.setMem sp m).err = s.err := by cases sp <;> rfl
@[simp] theorem setMem_height : (s.setMem sp m).height = s.height := by cases sp <;> rfl
@[simp] theorem setMem_width : (s.setMem sp m).width = s.width := by cases sp <;> rfl
@[simp] theorem setMem_channels : (s.setMem sp m).channels = s.channels := by cases sp <;> rfl
@[simp] theorem setMem_mlen : (s.setMem sp m).mlen = s.mlen := by cases sp <;> rfl
@[simp] theorem setMem_olen : (s.setMem sp m).olen = s.olen := by cases sp <;> rfl
@[simp] theorem setMem_pos : (s.setMem sp m).pos = s.pos := by cases sp <;> rfl
@[simp] theorem setMem_si : (s.setMem sp m).si = s.si := by cases sp <;> rfl
@[simp] theorem setMem_sr : (s.setMem sp m).sr = s.sr := by cases sp <;> rfl
@[simp] theorem setMem_sc : (s.setMem sp m).sc = s.sc := by cases sp <;> rfl
@[simp] theorem setMem_g : (s.setMem sp m).g = s.g := by cases sp <;> rfl
@[simp] theorem setMem_gc : (s.setMem sp m).gc = s.gc := by cases sp <;> rfl
@[simp] theorem setMem_n : (s.setMem sp m).n = s.n := by cases sp <;> rfl
@[simp] theorem setMem_host : (s.setMem sp m).host = s.host := by cases sp <;> rfl
@[simp] theorem setMem_seen : (s.setMem sp m).seen = s.seen := by cases sp <;> rfl
@[simp] theorem setMem_port : (s.setMem sp m).port = s.port := by cases sp <;> rfl
@[simp] theorem setMem_freeIdx : (s.setMem sp m).freeIdx = s.freeIdx := by cases sp <;> rfl

@[simp] theorem setMem_rows : (s.setMem sp m).rows = s.rows := by cases sp <;> rfl
@[simp] theorem setMem_cols : (s.setMem sp m).cols = s.cols := by cases sp <;> rfl
@[simp] theorem setMem_chans : (s.setMem sp m).chans = s.chans := by cases sp <;> rfl
@[simp] theorem setMem_cells : (s.setMem sp m).cells = s.cells := by cases sp <;> rfl
@[simp] theorem setMem_msgLen : (s.setMem sp m).msgLen = s.msgLen := by cases sp <;> rfl
@[simp] theorem setMem_bitLen : (s.setMem sp m).bitLen = s.bitLen := by cases sp <;> rfl
@[simp] theorem setMem_groups : (s.setMem sp m).groups = s.groups := by cases sp <;> rfl

end setMem

section putByte

variable (s : State) (sp : Space) (a : Nat) (v : Byte)

@[simp] theorem putByte_cfg : (s.putByte sp a v).cfg = s.cfg := by cases sp <;> rfl
@[simp] theorem putByte_phase : (s.putByte sp a v).phase = s.phase := by cases sp <;> rfl
@[simp] theorem putByte_done : (s.putByte sp a v).done = s.done := by cases sp <;> rfl
@[simp] theorem putByte_err : (s.putByte sp a v).err = s.err := by cases sp <;> rfl
@[simp] theorem putByte_height : (s.putByte sp a v).height = s.height := by cases sp <;> rfl
@[simp] theorem putByte_width : (s.putByte sp a v).width = s.width := by cases sp <;> rfl
@[simp] theorem putByte_channels : (s.putByte sp a v).channels = s.channels := by cases sp <;> rfl
@[simp] theorem putByte_mlen : (s.putByte sp a v).mlen = s.mlen := by cases sp <;> rfl
@[simp] theorem putByte_olen : (s.putByte sp a v).olen = s.olen := by cases sp <;> rfl
@[simp] theorem putByte_pos : (s.putByte sp a v).pos = s.pos := by cases sp <;> rfl
@[simp] theorem putByte_si : (s.putByte sp a v).si = s.si := by cases sp <;> rfl
@[simp] theorem putByte_sr : (s.putByte sp a v).sr = s.sr := by cases sp <;> rfl
@[simp] theorem putByte_sc : (s.putByte sp a v).sc = s.sc := by cases sp <;> rfl
@[simp] theorem putByte_g : (s.putByte sp a v).g = s.g := by cases sp <;> rfl
@[simp] theorem putByte_gc : (s.putByte sp a v).gc = s.gc := by cases sp <;> rfl
@[simp] theorem putByte_n : (s.putByte sp a v).n = s.n := by cases sp <;> rfl
@[simp] theorem putByte_host : (s.putByte sp a v).host = s.host := by cases sp <;> rfl
@[simp] theorem putByte_seen : (s.putByte sp a v).seen = s.seen := by cases sp <;> rfl
@[simp] theorem putByte_port : (s.putByte sp a v).port = s.port := by cases sp <;> rfl
@[simp] theorem putByte_freeIdx : (s.putByte sp a v).freeIdx = s.freeIdx := by cases sp <;> rfl

@[simp] theorem putByte_rows : (s.putByte sp a v).rows = s.rows := by cases sp <;> rfl
@[simp] theorem putByte_cols : (s.putByte sp a v).cols = s.cols := by cases sp <;> rfl
@[simp] theorem putByte_chans : (s.putByte sp a v).chans = s.chans := by cases sp <;> rfl
@[simp] theorem putByte_cells : (s.putByte sp a v).cells = s.cells := by cases sp <;> rfl
@[simp] theorem putByte_msgLen : (s.putByte sp a v).msgLen = s.msgLen := by cases sp <;> rfl
@[simp] theorem putByte_bitLen : (s.putByte sp a v).bitLen = s.bitLen := by cases sp <;> rfl
@[simp] theorem putByte_groups : (s.putByte sp a v).groups = s.groups := by cases sp <;> rfl

end putByte

section note

variable (s : State) (x : PortAccess)

@[simp] theorem note_cfg : (s.note x).cfg = s.cfg := rfl
@[simp] theorem note_phase : (s.note x).phase = s.phase := rfl
@[simp] theorem note_done : (s.note x).done = s.done := rfl
@[simp] theorem note_err : (s.note x).err = s.err := rfl
@[simp] theorem note_height : (s.note x).height = s.height := rfl
@[simp] theorem note_width : (s.note x).width = s.width := rfl
@[simp] theorem note_channels : (s.note x).channels = s.channels := rfl
@[simp] theorem note_mlen : (s.note x).mlen = s.mlen := rfl
@[simp] theorem note_olen : (s.note x).olen = s.olen := rfl
@[simp] theorem note_pos : (s.note x).pos = s.pos := rfl
@[simp] theorem note_si : (s.note x).si = s.si := rfl
@[simp] theorem note_sr : (s.note x).sr = s.sr := rfl
@[simp] theorem note_sc : (s.note x).sc = s.sc := rfl
@[simp] theorem note_g : (s.note x).g = s.g := rfl
@[simp] theorem note_gc : (s.note x).gc = s.gc := rfl
@[simp] theorem note_n : (s.note x).n = s.n := rfl
@[simp] theorem note_pixMem : (s.note x).pixMem = s.pixMem := rfl
@[simp] theorem note_minMem : (s.note x).minMem = s.minMem := rfl
@[simp] theorem note_moutMem : (s.note x).moutMem = s.moutMem := rfl
@[simp] theorem note_host : (s.note x).host = s.host := rfl
@[simp] theorem note_seen : (s.note x).seen = s.seen := rfl
@[simp] theorem note_port : (s.note x).port = x :: s.port := rfl
@[simp] theorem note_freeIdx : (s.note x).freeIdx = s.freeIdx := rfl

@[simp] theorem note_rows : (s.note x).rows = s.rows := rfl
@[simp] theorem note_cols : (s.note x).cols = s.cols := rfl
@[simp] theorem note_chans : (s.note x).chans = s.chans := rfl
@[simp] theorem note_cells : (s.note x).cells = s.cells := rfl
@[simp] theorem note_msgLen : (s.note x).msgLen = s.msgLen := rfl
@[simp] theorem note_bitLen : (s.note x).bitLen = s.bitLen := rfl
@[simp] theorem note_groups : (s.note x).groups = s.groups := rfl
@[simp] theorem note_mem (q : Space) : (s.note x).mem q = s.mem q := by cases q <;> rfl
@[simp] theorem note_byteAt (q : Space) (b : Nat) : (s.note x).byteAt q b = s.byteAt q b := by cases q <;> rfl

end note

section see

variable (s : State) (x : HostSeen)

@[simp] theorem see_cfg : (s.see x).cfg = s.cfg := rfl
@[simp] theorem see_phase : (s.see x).phase = s.phase := rfl
@[simp] theorem see_done : (s.see x).done = s.done := rfl
@[simp] theorem see_err : (s.see x).err = s.err := rfl
@[simp] theorem see_height : (s.see x).height = s.height := rfl
@[simp] theorem see_width : (s.see x).width = s.width := rfl
@[simp] theorem see_channels : (s.see x).channels = s.channels := rfl
@[simp] theorem see_mlen : (s.see x).mlen = s.mlen := rfl
@[simp] theorem see_olen : (s.see x).olen = s.olen := rfl
@[simp] theorem see_pos : (s.see x).pos = s.pos := rfl
@[simp] theorem see_si : (s.see x).si = s.si := rfl
@[simp] theorem see_sr : (s.see x).sr = s.sr := rfl
@[simp] theorem see_sc : (s.see x).sc = s.sc := rfl
@[simp] theorem see_g : (s.see x).g = s.g := rfl
@[simp] theorem see_gc : (s.see x).gc = s.gc := rfl
@[simp] theorem see_n : (s.see x).n = s.n := rfl
@[simp] theorem see_pixMem : (s.see x).pixMem = s.pixMem := rfl
@[simp] theorem see_minMem : (s.see x).minMem = s.minMem := rfl
@[simp] theorem see_moutMem : (s.see x).moutMem = s.moutMem := rfl
@[simp] theorem see_host : (s.see x).host = s.host := rfl
@[simp] theorem see_seen : (s.see x).seen = x :: s.seen := rfl
@[simp] theorem see_port : (s.see x).port = s.port := rfl
@[simp] theorem see_freeIdx : (s.see x).freeIdx = s.freeIdx := rfl

@[simp] theorem see_rows : (s.see x).rows = s.rows := rfl
@[simp] theorem see_cols : (s.see x).cols = s.cols := rfl
@[simp] theorem see_chans : (s.see x).chans = s.chans := rfl
@[simp] theorem see_cells : (s.see x).cells = s.cells := rfl
@[simp] theorem see_msgLen : (s.see x).msgLen = s.msgLen := rfl
@[simp] theorem see_bitLen : (s.see x).bitLen = s.bitLen := rfl
@[simp] theorem see_groups : (s.see x).groups = s.groups := rfl
@[simp] theorem see_mem (q : Space) : (s.see x).mem q = s.mem q := by cases q <;> rfl
@[simp] theorem see_byteAt (q : Space) (b : Nat) : (s.see x).byteAt q b = s.byteAt q b := by cases q <;> rfl

end see

section raiseError

variable (e : ErrorKind) (s : State)

@[simp] theorem raiseError_cfg : (raiseError e s).cfg = s.cfg := rfl
@[simp] theorem raiseError_phase : (raiseError e s).phase = .ready := rfl
@[simp] theorem raiseError_done : (raiseError e s).done = true := rfl
@[simp] theorem raiseError_err : (raiseError e s).err = e := rfl
@[simp] theorem raiseError_height : (raiseError e s).height = s.height := rfl
@[simp] theorem raiseError_width : (raiseError e s).width = s.width := rfl
@[simp] theorem raiseError_channels : (raiseError e s).channels = s.channels := rfl
@[simp] theorem raiseError_mlen : (raiseError e s).mlen = s.mlen := rfl
@[simp] theorem raiseError_olen : (raiseError e s).olen = s.olen := rfl
@[simp] theorem raiseError_pos : (raiseError e s).pos = s.pos := rfl
@[simp] theorem raiseError_si : (raiseError e s).si = s.si := rfl
@[simp] theorem raiseError_sr : (raiseError e s).sr = s.sr := rfl
@[simp] theorem raiseError_sc : (raiseError e s).sc = s.sc := rfl
@[simp] theorem raiseError_g : (raiseError e s).g = s.g := rfl
@[simp] theorem raiseError_gc : (raiseError e s).gc = s.gc := rfl
@[simp] theorem raiseError_n : (raiseError e s).n = s.n := rfl
@[simp] theorem raiseError_pixMem : (raiseError e s).pixMem = s.pixMem := rfl
@[simp] theorem raiseError_minMem : (raiseError e s).minMem = s.minMem := rfl
@[simp] theorem raiseError_moutMem : (raiseError e s).moutMem = s.moutMem := rfl
@[simp] theorem raiseError_host : (raiseError e s).host = s.host := rfl
@[simp] theorem raiseError_seen : (raiseError e s).seen = s.seen := rfl
@[simp] theorem raiseError_port : (raiseError e s).port = s.port := rfl
@[simp] theorem raiseError_freeIdx : (raiseError e s).freeIdx = s.freeIdx := rfl

@[simp] theorem raiseError_rows : (raiseError e s).rows = s.rows := rfl
@[simp] theorem raiseError_cols : (raiseError e s).cols = s.cols := rfl
@[simp] theorem raiseError_chans : (raiseError e s).chans = s.chans := rfl
@[simp] theorem raiseError_cells : (raiseError e s).cells = s.cells := rfl
@[simp] theorem raiseError_msgLen : (raiseError e s).msgLen = s.msgLen := rfl
@[simp] theorem raiseError_bitLen : (raiseError e s).bitLen = s.bitLen := rfl
@[simp] theorem raiseError_groups : (raiseError e s).groups = s.groups := rfl
@[simp] theorem raiseError_mem (q : Space) : (raiseError e s).mem q = s.mem q := by cases q <;> rfl
@[simp] theorem raiseError_byteAt (q : Space) (b : Nat) : (raiseError e s).byteAt q b = s.byteAt q b := by cases q <;> rfl

end raiseError

section finishOk

variable (s : State)

@[simp] theorem finishOk_cfg : (finishOk s).cfg = s.cfg := rfl
@[simp] theorem finishOk_phase : (finishOk s).phase = .ready := rfl
@[simp] theorem finishOk_done : (finishOk s).done = true := rfl
@[simp] theorem finishOk_err : (finishOk s).err = .ok := rfl
@[simp] theorem finishOk_height : (finishOk s).height = s.height := rfl
@[simp] theorem finishOk_width : (finishOk s).width = s.width := rfl
@[simp] theorem finishOk_channels : (finishOk s).channels = s.channels := rfl
@[simp] theorem finishOk_mlen : (finishOk s).mlen = s.mlen := rfl
@[simp] theorem finishOk_olen : (finishOk s).olen = s.olen := rfl
@[simp] theorem finishOk_pos : (finishOk s).pos = s.pos := rfl
@[simp] theorem finishOk_si : (finishOk s).si = s.si := rfl
@[simp] theorem finishOk_sr : (finishOk s).sr = s.sr := rfl
@[simp] theorem finishOk_sc : (finishOk s).sc = s.sc := rfl
@[simp] theorem finishOk_g : (finishOk s).g = s.g := rfl
@[simp] theorem finishOk_gc : (finishOk s).gc = s.gc := rfl
@[simp] theorem finishOk_n : (finishOk s).n = s.n := rfl
@[simp] theorem finishOk_pixMem : (finishOk s).pixMem = s.pixMem := rfl
@[simp] theorem finishOk_minMem : (finishOk s).minMem = s.minMem := rfl
@[simp] theorem finishOk_moutMem : (finishOk s).moutMem = s.moutMem := rfl
@[simp] theorem finishOk_host : (finishOk s).host = s.host := rfl
@[simp] theorem finishOk_seen : (finishOk s).seen = s.seen := rfl
@[simp] theorem finishOk_port : (finishOk s).port = s.port := rfl
@[simp] theorem finishOk_freeIdx : (finishOk s).freeIdx = s.freeIdx := rfl

@[simp] theorem finishOk_rows : (finishOk s).rows = s.rows := rfl
@[simp] theorem finishOk_cols : (finishOk s).cols = s.cols := rfl
@[simp] theorem finishOk_chans : (finishOk s).chans = s.chans := rfl
@[simp] theorem finishOk_cells : (finishOk s).cells = s.cells := rfl
@[simp] theorem finishOk_msgLen : (finishOk s).msgLen = s.msgLen := rfl
@[simp] theorem finishOk_bitLen : (finishOk s).bitLen = s.bitLen := rfl
@[simp] theorem finishOk_groups : (finishOk s).groups = s.groups := rfl
@[simp] theorem finishOk_mem (q : Space) : (finishOk s).mem q = s.mem q := by cases q <;> rfl
@[simp] theorem finishOk_byteAt (q : Space) (b : Nat) : (finishOk s).byteAt q b = s.byteAt q b := by cases q <;> rfl

end finishOk

section beginIssue

variable (s : State)

@[simp] theorem beginIssue_cfg : (beginIssue s).cfg = s.cfg := rfl
@[simp] theorem beginIssue_phase : (beginIssue s).phase = s.phase := rfl
@[simp] theorem beginIssue_done : (beginIssue s).done = false := rfl
@[simp] theorem beginIssue_err : (beginIssue s).err = .ok := rfl
@[simp] theorem beginIssue_height : (beginIssue s).height = s.height := rfl
@[simp] theorem beginIssue_width : (beginIssue s).width = s.width := rfl
@[simp] theorem beginIssue_channels : (beginIssue s).channels = s.channels := rfl
@[simp] theorem beginIssue_mlen : (beginIssue s).mlen = s.mlen := rfl
@[simp] theorem beginIssue_olen : (beginIssue s).olen = s.olen := rfl
@[simp] theorem beginIssue_pos : (beginIssue s).pos = s.pos := rfl
@[simp] theorem beginIssue_si : (beginIssue s).si = s.si := rfl
@[simp] theorem beginIssue_sr : (beginIssue s).sr = s.sr := rfl
@[simp] theorem beginIssue_sc : (beginIssue s).sc = s.sc := rfl
@[simp] theorem beginIssue_g : (beginIssue s).g = s.g := rfl
@[simp] theorem beginIssue_gc : (beginIssue s).gc = s.gc := rfl
@[simp] theorem beginIssue_n : (beginIssue s).n = s.n := rfl
@[simp] theorem beginIssue_pixMem : (beginIssue s).pixMem = s.pixMem := rfl
@[simp] theorem beginIssue_minMem : (beginIssue s).minMem = s.minMem := rfl
@[simp] theorem beginIssue_moutMem : (beginIssue s).moutMem = s.moutMem := rfl
@[simp] theorem beginIssue_host : (beginIssue s).host = s.host := rfl
@[simp] theorem beginIssue_seen : (beginIssue s).seen = s.seen := rfl
@[simp] theorem beginIssue_port : (beginIssue s).port = s.port := rfl
@[simp] theorem beginIssue_freeIdx : (beginIssue s).freeIdx = s.freeIdx := rfl

@[simp] theorem beginIssue_rows : (beginIssue s).rows = s.rows := rfl
@[simp] theorem beginIssue_cols : (beginIssue s).cols = s.cols := rfl
@[simp] theorem beginIssue_chans : (beginIssue s).chans = s.chans := rfl
@[simp] theorem beginIssue_cells : (beginIssue s).cells = s.cells := rfl
@[simp] theorem beginIssue_msgLen : (beginIssue s).msgLen = s.msgLen := rfl
@[simp] theorem beginIssue_bitLen : (beginIssue s).bitLen = s.bitLen := rfl
@[simp] theorem beginIssue_groups : (beginIssue s).groups = s.groups := rfl
@[simp] theorem beginIssue_mem (q : Space) : (beginIssue s).mem q = s.mem q := by cases q <;> rfl
@[simp] theorem beginIssue_byteAt (q : Space) (b : Nat) : (beginIssue s).byteAt q b = s.byteAt q b := by cases q <;> rfl

end beginIssue

section resetBlock

variable (s : State)

@[simp] theorem resetBlock_cfg : (resetBlock s).cfg = s.cfg := rfl
@[simp] theorem resetBlock_phase : (resetBlock s).phase = .ready := rfl
@[simp] theorem resetBlock_done : (resetBlock s).done = false := rfl
@[simp] theorem resetBlock_err : (resetBlock s).err = .ok := rfl
@[simp] theorem resetBlock_height : (resetBlock s).height = 0 := rfl
@[simp] theorem resetBlock_width : (resetBlock s).width = 0 := rfl
@[simp] theorem resetBlock_channels : (resetBlock s).channels = 0 := rfl
@[simp] theorem resetBlock_mlen : (resetBlock s).mlen = 0 := rfl
@[simp] theorem resetBlock_olen : (resetBlock s).olen = 0 := rfl
@[simp] theorem resetBlock_pos : (resetBlock s).pos = 0 := rfl
@[simp] theorem resetBlock_si : (resetBlock s).si = 0 := rfl
@[simp] theorem resetBlock_sr : (resetBlock s).sr = 0 := rfl
@[simp] theorem resetBlock_sc : (resetBlock s).sc = 0 := rfl
@[simp] theorem resetBlock_g : (resetBlock s).g = 0 := rfl
@[simp] theorem resetBlock_gc : (resetBlock s).gc = 0 := rfl
@[simp] theorem resetBlock_n : (resetBlock s).n = 0 := rfl
@[simp] theorem resetBlock_pixMem : (resetBlock s).pixMem = s.pixMem := rfl
@[simp] theorem resetBlock_minMem : (resetBlock s).minMem = s.minMem := rfl
@[simp] theorem resetBlock_moutMem : (resetBlock s).moutMem = s.moutMem := rfl
@[simp] theorem resetBlock_host : (resetBlock s).host = s.host := rfl
@[simp] theorem resetBlock_seen : (resetBlock s).seen = s.seen := rfl
@[simp] theorem resetBlock_port : (resetBlock s).port = s.port := rfl
@[simp] theorem resetBlock_freeIdx : (resetBlock s).freeIdx = s.freeIdx := rfl
@[simp] theorem resetBlock_mem (q : Space) : (resetBlock s).mem q = s.mem q := by cases q <;> rfl
@[simp] theorem resetBlock_byteAt (q : Space) (b : Nat) : (resetBlock s).byteAt q b = s.byteAt q b := by cases q <;> rfl

end resetBlock

@[simp] theorem setMem_mem_same (s : State) (sp : Space) (m : Memory) : (s.setMem sp m).mem sp = m := by
  cases sp <;> rfl

theorem setMem_mem_ne {q : Space} (s : State) (sp : Space) (m : Memory) (h : q ≠ sp) : (s.setMem sp m).mem q = s.mem q := by
  cases sp <;> cases q <;> first | rfl | exact absurd rfl h

end Sys2Proof.Machine
end

