-- ==== Sys2Proof/Laws/Memory.lean ====
section
/-! SUPPORT. The laws of the memories: a read after a write to the same offset gives the byte written,
a write leaves every other offset alone, and a write keeps the canonical form (20_memory R59). -/

namespace Sys2Proof.Machine

theorem find_put_same (m : Memory) (a : Nat) (v : Byte) : (m.put a v).find a = some v := by
  induction m with
  | nil => simp [Memory.put, Memory.find]
  | cons x m ih =>
    obtain ⟨k, w⟩ := x
    simp only [Memory.put]
    split
    · simp [Memory.find]
    · split
      · simp [Memory.find]
      · have : k ≠ a := by omega
        simp [Memory.find, this, ih]

theorem find_put_ne (m : Memory) {a b : Nat} (v : Byte) (h : b ≠ a) :
    (m.put a v).find b = m.find b := by
  have h' : ¬ a = b := fun e => h e.symm
  induction m with
  | nil => simp [Memory.put, Memory.find, h']
  | cons x m ih =>
    obtain ⟨k, w⟩ := x
    simp only [Memory.put]
    split
    · simp [Memory.find, h']
    · split
      · subst_vars; simp [Memory.find, h']
      · simp [Memory.find, ih]

theorem mem_put {m : Memory} {a : Nat} {v : Byte} {x : Host.Cell} (h : x ∈ m.put a v) :
    x = (a, v) ∨ x ∈ m := by
  induction m with
  | nil => simpa [Memory.put] using h
  | cons y m ih =>
    obtain ⟨k, w⟩ := y
    simp only [Memory.put] at h
    split at h
    · simpa using h
    · split at h
      · rcases List.mem_cons.1 h with h | h
        · exact .inl h
        · exact .inr (List.mem_cons_of_mem _ h)
      · rcases List.mem_cons.1 h with h | h
        · exact .inr (h ▸ List.mem_cons_self)
        · exact (ih h).imp id (List.mem_cons_of_mem _)

theorem put_wf {m : Memory} (a : Nat) (v : Byte) (h : m.wf) : (m.put a v).wf := by
  induction m with
  | nil => simp [Memory.put, Memory.wf]
  | cons y m ih =>
    obtain ⟨k, w⟩ := y
    obtain ⟨hk, hm⟩ := List.pairwise_cons.1 h
    simp only [Memory.put]
    split
    · refine List.pairwise_cons.2 ⟨fun x hx => ?_, h⟩
      rcases List.mem_cons.1 hx with rfl | hx
      · assumption
      · exact Nat.lt_trans ‹a < k› (hk x hx)
    · split
      · subst_vars; exact List.pairwise_cons.2 ⟨hk, hm⟩
      · refine List.pairwise_cons.2 ⟨fun x hx => ?_, ih hm⟩
        rcases mem_put hx with rfl | hx
        · simp only; omega
        · exact hk x hx

theorem put_within {m : Memory} {a size : Nat} (v : Byte) (ha : a < size) (h : m.within size) :
    (m.put a v).within size := by
  intro x hx
  rcases mem_put hx with rfl | hx
  · exact ha
  · exact h x hx

@[simp] theorem byteAt_putByte_same (s : State) (sp : Space) (a : Nat) (v : Byte) :
    (s.putByte sp a v).byteAt sp a = v := by
  simp [State.byteAt, State.putByte, find_put_same]

theorem byteAt_putByte_ne (s : State) (sp : Space) {a b : Nat} (v : Byte) (h : b ≠ a) :
    (s.putByte sp a v).byteAt sp b = s.byteAt sp b := by
  simp [State.byteAt, State.putByte, find_put_ne _ _ h]

theorem byteAt_putByte_space {sp q : Space} (s : State) (a b : Nat) (v : Byte) (h : q ≠ sp) :
    (s.putByte sp a v).byteAt q b = s.byteAt q b := by
  simp [State.byteAt, State.putByte, setMem_mem_ne _ _ _ h]

/-- Writing a byte keeps the canonical form of all three memories, where the offset exists. -/
theorem putByte_memOk {s : State} {sp : Space} {a : Nat} (v : Byte) (ha : a < s.cfg.size sp)
    (h : s.memOk) : (s.putByte sp a v).memOk := by
  obtain ⟨h1, h2, h3, h4, h5, h6⟩ := h
  cases sp
  · exact ⟨put_wf a v h1, h2, h3, put_within v ha h4, h5, h6⟩
  · exact ⟨h1, put_wf a v h2, h3, h4, put_within v ha h5, h6⟩
  · exact ⟨h1, h2, put_wf a v h3, h4, h5, put_within v ha h6⟩

end Sys2Proof.Machine
end

