-- ==== Sys2Proof/Laws/Ops.lean ====
section
/-! SUPPORT. One lemma per shared operation that says everything it can do: what it answers where its
offset exists, and what follows when it answers a next state. -/

namespace Sys2Proof.Machine

theorem engineRead_of_lt {s : State} {sp : Space} {a : Nat} (rest : Byte → State → Res)
    (h : a < s.cfg.size sp) :
    engineRead s sp a rest = rest (s.byteAt sp a) (s.note (.read sp a)) := if_pos h

theorem engineRead_next {s t : State} {sp : Space} {a : Nat} {rest : Byte → State → Res}
    (h : engineRead s sp a rest = .next t) :
    a < s.cfg.size sp ∧ rest (s.byteAt sp a) (s.note (.read sp a)) = .next t := by
  unfold engineRead at h
  split at h
  · exact ⟨‹_›, h⟩
  · cases h

theorem engineWrite_of_lt {s : State} {sp : Space} {a : Nat} (v : Byte) (rest : State → Res)
    (h : a < s.cfg.size sp) :
    engineWrite s sp a v rest = rest ((s.putByte sp a v).note (.write sp a)) := if_pos h

theorem engineWrite_next {s t : State} {sp : Space} {a : Nat} {v : Byte} {rest : State → Res}
    (h : engineWrite s sp a v rest = .next t) :
    a < s.cfg.size sp ∧ rest ((s.putByte sp a v).note (.write sp a)) = .next t := by
  unfold engineWrite at h
  split at h
  · exact ⟨‹_›, h⟩
  · cases h

/-- What `SR` holds when the bit for position `j` is delivered (40_serializer R93). -/
def State.srAt (s : State) (j : Nat) : Byte := if s.sc = 0 then s.byteAt .min (j / 8) else s.sr

/-- What the monitor has seen after the bit for position `j` is delivered. -/
def State.serialPort (s : State) (j : Nat) : List PortAccess :=
  if s.sc = 0 then .read .min (j / 8) :: s.port else s.port

/-- The state after the serializer delivers the bit for position `j` (40_serializer R93). -/
def State.serialized (s : State) (j : Nat) : State :=
  { s with
    sr := shiftOut (s.srAt j)
    sc := (if s.sc = 0 then 8 else s.sc) - 1
    port := s.serialPort j }

theorem nextBit_eq {s : State} {j : Nat} (rest : Bool → State → Res)
    (h : s.sc = 0 → j / 8 < s.cfg.minBytes) :
    nextBit s j rest = rest (topBit (s.srAt j)) (s.serialized j) := by
  unfold nextBit State.serialized State.srAt State.serialPort
  split
  · rw [engineRead_of_lt _ (h ‹_›)]; rfl
  · rfl

theorem nextBit_next {s t : State} {j : Nat} {rest : Bool → State → Res}
    (h : nextBit s j rest = .next t) :
    (s.sc = 0 → j / 8 < s.cfg.minBytes) ∧
      rest (topBit (s.srAt j)) (s.serialized j) = .next t := by
  by_cases h0 : s.sc = 0 → j / 8 < s.cfg.minBytes
  · exact ⟨h0, nextBit_eq rest h0 ▸ h⟩
  · obtain ⟨hz, hr⟩ := Classical.not_imp.1 h0
    simp only [nextBit, hz, if_true] at h
    exact absurd (engineRead_next h).1 hr

/-- The state after a cell is read and written at the same offset (20_memory R55). -/
def State.touched (s : State) (a : Nat) (v : Byte) : State :=
  { s with
    pixMem := s.pixMem.put a v
    port := .write .pix a :: .read .pix a :: s.port }

theorem lsbr_of_lt {s : State} {p : Nat} (rest : Bool → State → Res)
    (h : s.addr p < s.cfg.pixCells) :
    lsbr s p rest = rest (s.lsbAt p) (s.note (.read .pix (s.addr p))) :=
  engineRead_of_lt _ h

theorem lsbr_next {s t : State} {p : Nat} {rest : Bool → State → Res}
    (h : lsbr s p rest = .next t) :
    s.addr p < s.cfg.pixCells ∧ rest (s.lsbAt p) (s.note (.read .pix (s.addr p))) = .next t :=
  engineRead_next h

theorem lsbw_of_lt {s : State} {p : Nat} (b : Bool) (rest : State → Res)
    (h : s.addr p < s.cfg.pixCells) :
    lsbw s p b rest = rest (s.touched (s.addr p) (withLsb (s.byteAt .pix (s.addr p)) b)) := by
  unfold lsbw
  rw [engineRead_of_lt _ h, engineWrite_of_lt _ _ h]
  rfl

theorem lsbw_next {s t : State} {p : Nat} {b : Bool} {rest : State → Res}
    (h : lsbw s p b rest = .next t) :
    s.addr p < s.cfg.pixCells ∧
      rest (s.touched (s.addr p) (withLsb (s.byteAt .pix (s.addr p)) b)) = .next t := by
  have hr := (engineRead_next h).1
  exact ⟨hr, lsbw_of_lt b rest hr ▸ h⟩

theorem lsbset_of_lt {s : State} {p : Nat} (rest : State → Res) (h : s.addr p < s.cfg.pixCells) :
    lsbset s p rest = rest (s.touched (s.addr p) (forceLsb (s.byteAt .pix (s.addr p)))) := by
  unfold lsbset
  rw [engineRead_of_lt _ h, engineWrite_of_lt _ _ h]
  rfl

theorem lsbset_next {s t : State} {p : Nat} {rest : State → Res}
    (h : lsbset s p rest = .next t) :
    s.addr p < s.cfg.pixCells ∧
      rest (s.touched (s.addr p) (forceLsb (s.byteAt .pix (s.addr p)))) = .next t := by
  have hr := (engineRead_next h).1
  exact ⟨hr, lsbset_of_lt rest hr ▸ h⟩

theorem execTimes_succ {i : Instr} {k : Nat} {s t : State} (h : exec i s = .next t) :
    execTimes i (k + 1) s = execTimes i k t := by
  simp [execTimes, h]

theorem execTimes_add {i : Instr} {j k : Nat} {s t : State} (h : execTimes i j s = .next t) :
    execTimes i (j + k) s = execTimes i k t := by
  induction j generalizing s with
  | zero => cases h; simp
  | succ j ih =>
    rw [Nat.succ_add]
    simp only [execTimes] at h ⊢
    split at h
    · exact ih h
    · cases h
    · cases h

end Sys2Proof.Machine
end

