-- ==== Sys2Proof/Laws/Exec.lean ====
section
/-! SUPPORT. The inversion lemmas of the step rules: everything one step of a command can do. Every
later proof about a step cites these instead of unfolding it. -/

namespace Sys2Proof.Machine

/-- The state after a data cell is written (42_embed R121). -/
def State.afterData (s : State) : State :=
  { (s.serialized s.pos).touched (s.addr s.pos)
      (withLsb (s.byteAt .pix (s.addr s.pos)) (topBit (s.srAt s.pos))) with pos := s.pos + 1 }

/-- The state after the terminator cell is written (42_embed R121, R122). -/
def State.afterTerminator (s : State) : State :=
  finishOk { s.touched (s.addr s.bitLen) (forceLsb (s.byteAt .pix (s.addr s.bitLen))) with
    pos := s.bitLen + 1 }

theorem embedScan_done {s : State} (h : s.si = s.msgLen) :
    embedScan s = .next { s with pos := 0, sc := 0, phase := .eWrite } := if_pos h

theorem embedScan_byte {s : State} (h : s.si ≠ s.msgLen) (hr : s.si < s.cfg.minBytes) :
    embedScan s = .next
      (if topBit (s.byteAt .min s.si) then
        raiseError .unsupportedCharacter (s.note (.read .min s.si))
      else { s.note (.read .min s.si) with si := s.si + 1 }) := by
  unfold embedScan
  rw [if_neg h, engineRead_of_lt _ hr]
  split <;> rfl

theorem embedScan_cases {s t : State} (h : embedScan s = .next t) :
    (s.si = s.msgLen ∧ t = { s with pos := 0, sc := 0, phase := .eWrite }) ∨
    (s.si ≠ s.msgLen ∧ s.si < s.cfg.minBytes ∧ topBit (s.byteAt .min s.si) = true ∧
      t = raiseError .unsupportedCharacter (s.note (.read .min s.si))) ∨
    (s.si ≠ s.msgLen ∧ s.si < s.cfg.minBytes ∧ topBit (s.byteAt .min s.si) = false ∧
      t = { s.note (.read .min s.si) with si := s.si + 1 }) := by
  by_cases he : s.si = s.msgLen
  · rw [embedScan_done he] at h; cases h; exact .inl ⟨he, rfl⟩
  · have hr : s.si < s.cfg.minBytes := by
      unfold embedScan at h
      rw [if_neg he] at h
      exact (engineRead_next h).1
    rw [embedScan_byte he hr] at h
    cases hb : topBit (s.byteAt .min s.si) <;> simp [hb] at h
    · exact .inr (.inr ⟨he, hr, rfl, h.symm⟩)
    · exact .inr (.inl ⟨he, hr, rfl, h.symm⟩)

theorem embedWrite_data {s : State} (h : s.pos < s.bitLen) (ha : s.addr s.pos < s.cfg.pixCells)
    (hm : s.sc = 0 → s.pos / 8 < s.cfg.minBytes) : embedWrite s = .next s.afterData := by
  unfold embedWrite
  rw [if_pos h, nextBit_eq _ hm]
  exact lsbw_of_lt (s := s.serialized s.pos) _ _ ha

theorem embedWrite_terminator {s : State} (h : ¬ s.pos < s.bitLen)
    (ha : s.addr s.bitLen < s.cfg.pixCells) : embedWrite s = .next s.afterTerminator := by
  unfold embedWrite
  rw [if_neg h, lsbset_of_lt _ ha]
  rfl

theorem embedWrite_cases {s t : State} (h : embedWrite s = .next t) :
    (s.pos < s.bitLen ∧ s.addr s.pos < s.cfg.pixCells ∧
      (s.sc = 0 → s.pos / 8 < s.cfg.minBytes) ∧ t = s.afterData) ∨
    (¬ s.pos < s.bitLen ∧ s.addr s.bitLen < s.cfg.pixCells ∧ t = s.afterTerminator) := by
  by_cases hp : s.pos < s.bitLen
  · have h' := h
    unfold embedWrite at h'
    rw [if_pos hp] at h'
    obtain ⟨hm, h'⟩ := nextBit_next h'
    have ha : s.addr s.pos < s.cfg.pixCells := (lsbw_next h').1
    rw [embedWrite_data hp ha hm] at h
    cases h
    exact .inl ⟨hp, ha, hm, rfl⟩
  · have h' := h
    unfold embedWrite at h'
    rw [if_neg hp] at h'
    have ha := (lsbset_next h').1
    rw [embedWrite_terminator hp ha] at h
    cases h
    exact .inr ⟨hp, ha, rfl⟩

/-- Everything one step of `EMBED` can do (42_embed R116, R119, R121; 44_command R155). -/
theorem execEmbed_cases {s t : State} (h : execEmbed s = .next t) :
    (s.phase = .ready ∧ t = embedIssue s) ∨ (s.phase = .eCheck ∧ t = embedCheck s) ∨
    (s.phase = .eScan ∧ embedScan s = .next t) ∨ (s.phase = .eWrite ∧ embedWrite s = .next t) ∨
    (s.phase = .xRead ∧ t = s) := by
  unfold execEmbed at h
  split at h <;> simp_all

/-- The state after one bit is read inside a group (43_extract R137). -/
def State.afterBit (s : State) : State :=
  { s.note (.read .pix (s.addr s.pos)) with
    pos := s.pos + 1, g := pushBit s.g (s.lsbAt s.pos), gc := s.gc + 1 }

/-- The state after a group is completed by the terminator (43_extract R141). -/
def State.afterTerminate (s : State) : State :=
  finishOk { s.note (.read .pix (s.addr s.pos)) with
    pos := s.pos + 1, olen := BitVec.ofNat 32 s.n }

/-- The state after a group is completed by a message byte (43_extract R140). -/
def State.afterEmit (s : State) : State :=
  { s with
    moutMem := s.moutMem.put s.n (pushBit s.g (s.lsbAt s.pos))
    port := .write .mout s.n :: .read .pix (s.addr s.pos) :: s.port
    pos := s.pos + 1, n := s.n + 1, g := 0x00, gc := 0 }

/-- The state after exhaustion (43_extract R142). -/
def State.afterExhausted (s : State) : State := raiseError .noTerminatorFound { s with olen := 0 }

theorem extractRead_exhausted {s : State} (h : s.pos = s.cells) :
    extractRead s = .next s.afterExhausted := if_pos h

theorem extractRead_bit {s : State} (h : s.pos ≠ s.cells) (ha : s.addr s.pos < s.cfg.pixCells)
    (hg : s.gc < 7) : extractRead s = .next s.afterBit := by
  unfold extractRead
  rw [if_neg h, lsbr_of_lt _ ha]
  simp only [hg, if_true]
  rfl

theorem extractRead_terminate {s : State} (h : s.pos ≠ s.cells)
    (ha : s.addr s.pos < s.cfg.pixCells) (hg : ¬ s.gc < 7)
    (ht : topBit (pushBit s.g (s.lsbAt s.pos)) = true) :
    extractRead s = .next s.afterTerminate := by
  unfold extractRead
  rw [if_neg h, lsbr_of_lt _ ha]
  simp only [hg, if_false]
  unfold closeGroup
  rw [if_pos ht]
  rfl

theorem extractRead_emit {s : State} (h : s.pos ≠ s.cells)
    (ha : s.addr s.pos < s.cfg.pixCells) (hg : ¬ s.gc < 7)
    (ht : topBit (pushBit s.g (s.lsbAt s.pos)) = false) (hn : s.n < s.cfg.moutBytes) :
    extractRead s = .next s.afterEmit := by
  unfold extractRead
  rw [if_neg h, lsbr_of_lt _ ha]
  simp only [hg, if_false]
  unfold closeGroup
  rw [if_neg (by simp [ht]), engineWrite_of_lt _ _ (by exact hn)]
  rfl

theorem extractRead_cases {s t : State} (h : extractRead s = .next t) :
    (s.pos = s.cells ∧ t = s.afterExhausted) ∨
    (s.pos ≠ s.cells ∧ s.addr s.pos < s.cfg.pixCells ∧ s.gc < 7 ∧ t = s.afterBit) ∨
    (s.pos ≠ s.cells ∧ s.addr s.pos < s.cfg.pixCells ∧ ¬ s.gc < 7 ∧
      topBit (pushBit s.g (s.lsbAt s.pos)) = true ∧ t = s.afterTerminate) ∨
    (s.pos ≠ s.cells ∧ s.addr s.pos < s.cfg.pixCells ∧ ¬ s.gc < 7 ∧
      topBit (pushBit s.g (s.lsbAt s.pos)) = false ∧ s.n < s.cfg.moutBytes ∧ t = s.afterEmit) := by
  by_cases hp : s.pos = s.cells
  · rw [extractRead_exhausted hp] at h; cases h; exact .inl ⟨hp, rfl⟩
  · have h' := h
    unfold extractRead at h'
    rw [if_neg hp] at h'
    obtain ⟨ha, h'⟩ := lsbr_next h'
    by_cases hg : s.gc < 7
    · rw [extractRead_bit hp ha hg] at h; cases h; exact .inr (.inl ⟨hp, ha, hg, rfl⟩)
    · simp only [hg, if_false] at h'
      unfold closeGroup at h'
      cases ht : topBit (pushBit s.g (s.lsbAt s.pos))
      · rw [if_neg (by simp [ht])] at h'
        have hn : s.n < s.cfg.moutBytes := (engineWrite_next h').1
        rw [extractRead_emit hp ha hg ht hn] at h
        cases h
        exact .inr (.inr (.inr ⟨hp, ha, hg, rfl, hn, rfl⟩))
      · rw [extractRead_terminate hp ha hg ht] at h
        cases h
        exact .inr (.inr (.inl ⟨hp, ha, hg, rfl, rfl⟩))

/-- Everything one step of `EXTRACT` can do (43_extract R137; 44_command R155). -/
theorem execExtract_cases {s t : State} (h : execExtract s = .next t) :
    (s.phase = .ready ∧ t = extractIssue s) ∨
    ((s.phase = .eCheck ∨ s.phase = .eScan ∨ s.phase = .eWrite) ∧ t = s) ∨
    (s.phase = .xRead ∧ extractRead s = .next t) := by
  unfold execExtract at h
  split at h <;> simp_all

end Sys2Proof.Machine
end

