-- ==== Sys2Proof/Laws/PerInstr.lean ====
section
/-! SUPPORT. Statements made of every command as a word (30_encoding R72). -/

namespace Sys2Proof.Laws.TableWord

/-- The command is well formed, its word is one of the two legal ones, and no other command has it
(30_encoding R71, R72). -/
def Statement (i : Instr) : Prop :=
  i.wf = true ∧ (encode i = 0x00000001#32 ∨ encode i = 0x00000002#32) ∧
    ∀ j, encode j = encode i → j = i

theorem embed : Statement .embed := ⟨rfl, .inl rfl, fun j h => by cases j <;> first | rfl | cases h⟩

theorem extract : Statement .extract := ⟨rfl, .inr rfl, fun j h => by cases j <;> first | rfl | cases h⟩

end Sys2Proof.Laws.TableWord
end

