-- ==== Sys2Proof/Laws/Step.lean ====
section
/-! SUPPORT. The inversion lemmas of the system's step: everything it can do, host actions and engine
steps (44_command R158, R161, R162). -/

namespace Sys2Proof.Machine

/-- The states that differ from `s` in the host's own fields alone. -/
def State.withHost (s : State) (h : List HostAction) (o : List HostSeen) (k : Nat) : State :=
  { s with host := h, seen := o, freeIdx := k }

theorem engineStep_ready {s : State} (h : s.phase = .ready) : engineStep s = .next s := by
  simp [engineStep, h, Phase.command]

theorem engineStep_embed {s : State} (h : s.phase = .eCheck ∨ s.phase = .eScan ∨ s.phase = .eWrite) :
    engineStep s = execEmbed s := by
  rcases h with h | h | h <;> simp [engineStep, h, Phase.command, exec]

theorem engineStep_extract {s : State} (h : s.phase = .xRead) : engineStep s = execExtract s := by
  simp [engineStep, h, Phase.command, exec]

theorem busy_of_ne {s : State} (h : s.phase ≠ .ready) : s.phase.busy = true := by
  cases hp : s.phase <;> simp_all [Phase.busy]

theorem not_busy_iff {s : State} : s.phase.busy = false ↔ s.phase = .ready := by
  cases hp : s.phase <;> simp [Phase.busy]

/-- Issue of a word: one of the two commands, or `InvalidOperation` (44_command R155). -/
theorem issueWord_cases {s t : State} {w : Word} (h : issueWord w s = .next t) :
    (∃ i, decode w = .legal i ∧ exec i s = .next t) ∨
    (decode w = .illegal w ∧ t = raiseError .invalidOperation (beginIssue s)) := by
  unfold issueWord at h
  split at h
  · exact .inl ⟨_, ‹_›, h⟩
  · rename_i v hv
    have : v = w := by
      unfold decode at hv
      split at hv
      · cases hv
      · split at hv <;> cases hv
        rfl
    subst this
    cases h
    exact .inr ⟨hv, rfl⟩

theorem readReg_state (s : State) (off : Nat) :
    ∃ k, (readReg s off).2 = { s with freeIdx := k } := by
  unfold readReg
  split
  all_goals first
    | exact ⟨s.freeIdx, rfl⟩
    | (split
       · exact ⟨_, rfl⟩
       · exact ⟨s.freeIdx, rfl⟩)

theorem hostRegRead_cases {s t : State} {off bytes : Nat} (h : hostRegRead s off bytes = .next t) :
    ∃ o k, t = { s with seen := o, freeIdx := k } := by
  unfold hostRegRead at h
  split at h
  · cases h
    obtain ⟨k, hk⟩ := readReg_state s off
    exact ⟨_, k, by rw [hk]; rfl⟩
  · cases h

/-- The states a register write can leave (44_command R161). -/
theorem writeReg_cases (s : State) (off : Nat) (v : Word) :
    writeReg s off v = s ∨ writeReg s off v = { s with height := v } ∨
    writeReg s off v = { s with width := v } ∨ writeReg s off v = { s with channels := v } ∨
    writeReg s off v = { s with mlen := v } := by
  unfold writeReg
  split <;> simp

/-- Everything a host action can do while BUSY (44_command R162). -/
theorem hostBusy_cases {s t : State} {x : HostAction} (h : hostBusy x s = .next t) :
    (∃ hs o k, t = s.withHost hs o k) ∨ t = resetBlock s ∨
    ∃ hs, engineStep { s with host := hs } = .next t := by
  cases x with
  | regWrite off bytes v =>
    simp only [hostBusy, hostRegWriteBusy] at h
    split at h
    · cases h; exact .inl ⟨s.host, s.seen, s.freeIdx, rfl⟩
    · cases h
  | regRead off bytes =>
    obtain ⟨o, k, rfl⟩ := hostRegRead_cases h
    exact .inl ⟨s.host, o, k, rfl⟩
  | memWrite sp a v => cases h
  | memRead sp a => cases h
  | reset => cases h; exact .inr (.inl rfl)
  | wait => exact .inr (.inr ⟨_, h⟩)
  | readResult => cases h
  | engine => exact .inr (.inr ⟨s.host, h⟩)

/-- Everything a host action can do while READY (44_command R161). -/
theorem hostReady_cases {s t : State} {x : HostAction} (h : hostReady x s = .next t) :
    (∃ hs o k, t = s.withHost hs o k) ∨ t = resetBlock s ∨ (∃ w, issueWord w s = .next t) ∨
    (∃ off v, t = writeReg s off v) ∨ (∃ sp a v, a < s.cfg.size sp ∧ t = s.putByte sp a v) := by
  cases x with
  | regWrite off bytes v =>
    simp only [hostReady, hostRegWriteReady] at h
    split at h
    · split at h
      · exact .inr (.inr (.inl ⟨v, h⟩))
      · cases h; exact .inr (.inr (.inr (.inl ⟨off, v, rfl⟩)))
    · cases h
  | regRead off bytes =>
    obtain ⟨o, k, rfl⟩ := hostRegRead_cases h
    exact .inl ⟨s.host, o, k, rfl⟩
  | memWrite sp a v =>
    simp only [hostReady, hostMemWrite] at h
    split at h
    · cases h; exact .inr (.inr (.inr (.inr ⟨sp, a, v, ‹_›, rfl⟩)))
    · cases h
  | memRead sp a =>
    simp only [hostReady, hostMemRead] at h
    split at h
    · cases h; exact .inl ⟨s.host, _, s.freeIdx, rfl⟩
    · cases h
  | reset => cases h; exact .inr (.inl rfl)
  | wait =>
    simp only [hostReady] at h
    split at h
    · cases h; exact .inl ⟨s.host, s.seen, s.freeIdx, rfl⟩
    · cases h; exact .inl ⟨_, s.seen, s.freeIdx, rfl⟩
  | readResult => cases h; exact .inl ⟨_, s.seen, s.freeIdx, rfl⟩
  | engine => cases h; exact .inl ⟨s.host, s.seen, s.freeIdx, rfl⟩

/-- Everything one step of the system can do. -/
theorem systemStep_cases {s t : State} (h : systemStep s = .next t) :
    (s.host = [] ∧ engineStep s = .next t) ∨
    (∃ x rest, s.host = x :: rest ∧ s.phase.busy = true ∧
      hostBusy x { s with host := rest } = .next t) ∨
    (∃ x rest, s.host = x :: rest ∧ s.phase = .ready ∧
      hostReady x { s with host := rest } = .next t) := by
  unfold systemStep at h
  split at h
  · exact .inl ⟨‹_›, h⟩
  · rename_i x rest hx
    split at h
    · exact .inr (.inl ⟨x, rest, hx, ‹_›, h⟩)
    · exact .inr (.inr ⟨x, rest, hx, not_busy_iff.1 (Bool.eq_false_iff.2 ‹_›), h⟩)

end Sys2Proof.Machine
end

