-- ==== Sys2Proof/Tests/Slice0.lean ====
section
/-! SUPPORT. Tests of single steps, their expected results taken from 95_test_vectors (the vector is
named beside each), and for every statement with hypotheses a witness that meets all of them. -/

namespace Sys2Proof.Tests

open Sys2Proof.Machine

/-! ### Helpers -/

/-- A memory that holds these bytes from offset 0 on. -/
def bytes (vs : List Byte) : Memory := (List.range vs.length).zip vs

/-- A READY block with `PIX_CELLS = 64`, `MIN_BYTES = 4`, `MOUT_BYTES = 8` (the sizes of CMD5 to CMD11). -/
def blank : State := State.powerOn ⟨64, 4, 8⟩

/-- The block of vector B4a, ready to issue: a 4 by 4 buffer of one channel, all `00`, message `41`. -/
def b4a : State :=
  { blank with
    height := 4, width := 4, channels := 1, mlen := 1
    pixMem := bytes (List.replicate 16 0x00), minMem := bytes [0x41] }

/-- The state that a step answers, if it answers one. -/
def nextOf : Res → Option State
  | .next s => some s
  | .fault _ => none
  | .refused _ => none

theorem inv_ready {s : State} (hp : s.phase = .ready)
    (h : s.cfg.ok = true ∧ s.memOk ∧ s.widthsOk ∧ s.statusOk) : s.Inv := by
  obtain ⟨a, b, c, d⟩ := h
  exact ⟨a, b, c, d, by unfold State.phaseOk; rw [hp]; trivial⟩

theorem inv_check {s : State} (hp : s.phase = .eCheck)
    (h : s.cfg.ok = true ∧ s.memOk ∧ s.widthsOk ∧ s.statusOk)
    (q : s.cells ≤ s.cfg.pixCells ∧ s.msgLen ≤ s.cfg.minBytes) : s.Inv := by
  obtain ⟨a, b, c, d⟩ := h
  exact ⟨a, b, c, d, by unfold State.phaseOk; rw [hp]; exact q⟩

theorem inv_scan {s : State} (hp : s.phase = .eScan)
    (h : s.cfg.ok = true ∧ s.memOk ∧ s.widthsOk ∧ s.statusOk)
    (q : s.cells ≤ s.cfg.pixCells ∧ s.msgLen ≤ s.cfg.minBytes ∧ s.frameFits ∧ s.si ≤ s.msgLen ∧
      s.plainBelow s.si) : s.Inv := by
  obtain ⟨a, b, c, d⟩ := h
  exact ⟨a, b, c, d, by unfold State.phaseOk; rw [hp]; exact q⟩

theorem inv_write {s : State} (hp : s.phase = .eWrite)
    (h : s.cfg.ok = true ∧ s.memOk ∧ s.widthsOk ∧ s.statusOk)
    (q : s.cells ≤ s.cfg.pixCells ∧ s.msgLen ≤ s.cfg.minBytes ∧ s.frameFits ∧ s.pos ≤ s.bitLen ∧
      s.plainBelow s.msgLen ∧ s.serializerOk) : s.Inv := by
  obtain ⟨a, b, c, d⟩ := h
  exact ⟨a, b, c, d, by unfold State.phaseOk; rw [hp]; exact q⟩

theorem inv_read {s : State} (hp : s.phase = .xRead)
    (h : s.cfg.ok = true ∧ s.memOk ∧ s.widthsOk ∧ s.statusOk)
    (q : s.cells ≤ s.cfg.pixCells ∧ s.pos ≤ s.cells ∧ s.gc = s.pos % 8 ∧ s.n = s.pos / 8 ∧
      s.g.toNat < 2 ^ s.gc) : s.Inv := by
  obtain ⟨a, b, c, d⟩ := h
  exact ⟨a, b, c, d, by unfold State.phaseOk; rw [hp]; exact q⟩

/-! ### Words written out from 30_encoding R71, R72 -/

/-- `EMBED`: `OP` = `0x00000001` (30_encoding R72). -/
theorem test_decode_embed :
    decode 0b00000000000000000000000000000001#32 = .legal .embed ∧
    decodeTableWord 32 0b00000000000000000000000000000001 = some .embed := by decide

/-- `EXTRACT`: `OP` = `0x00000002` (30_encoding R72). -/
theorem test_decode_extract :
    decode 0b00000000000000000000000000000010#32 = .legal .extract ∧
    decodeTableWord 32 0b00000000000000000000000000000010 = some .extract := by decide

/-- CMD1 to CMD5, and the largest word: none is a command (30_encoding R73). -/
theorem test_decode_illegal :
    decode 0x00000000 = .illegal 0x00000000 ∧ decode 0x00000003 = .illegal 0x00000003 ∧
    decode 0x80000001 = .illegal 0x80000001 ∧ decode 0x00000101 = .illegal 0x00000101 ∧
    decode 0x00000007 = .illegal 0x00000007 ∧ decode 0xFFFFFFFF = .illegal 0xFFFFFFFF := by decide

/-! ### Well-formedness: what the check refuses (20_memory R50, R53) -/

theorem test_wf_instr : Instr.embed.wf = true ∧ Instr.extract.wf = true := by decide

theorem test_wf_register_shape :
    (HostAction.regWrite 0x08 4 0).wf blank.cfg = true ∧
    (HostAction.regWrite 0x08 2 0).wf blank.cfg = false ∧
    (HostAction.regWrite 0x0A 4 0).wf blank.cfg = false ∧
    (HostAction.regRead 0x04 1).wf blank.cfg = false ∧
    (HostAction.regRead 0x05 4).wf blank.cfg = false := by decide

theorem test_wf_memory_offset :
    (HostAction.memWrite .pix 63 0).wf blank.cfg = true ∧
    (HostAction.memWrite .pix 64 0).wf blank.cfg = false ∧
    (HostAction.memRead .min 4).wf blank.cfg = false ∧
    (HostAction.memRead .mout 8).wf blank.cfg = false := by decide

/-! ### Cells, serializer, groups, Traversal -/

/-- CEL1 to CEL4 (95_test_vectors 2.3): `LSBR`, `LSBW` of 0, `LSBW` of 1, `LSBSET`. -/
theorem test_cells_low :
    [0x00, 0x01, 0x7F, 0x80].map (fun v : Byte => (lsbOf v, withLsb v false, withLsb v true, forceLsb v)) =
      [(false, 0x00, 0x01, 0x01), (true, 0x00, 0x01, 0x01), (true, 0x7E, 0x7F, 0x7F),
       (false, 0x80, 0x81, 0x81)] := by decide

/-- CEL5 to CEL8. -/
theorem test_cells_high :
    [0xFE, 0xFF, 0x19, 0x14].map (fun v : Byte => (lsbOf v, withLsb v false, withLsb v true, forceLsb v)) =
      [(false, 0xFE, 0xFF, 0xFF), (true, 0xFE, 0xFF, 0xFF), (true, 0x18, 0x19, 0x19),
       (false, 0x14, 0x15, 0x15)] := by decide

/-- SER2 (95_test_vectors 2.1): the single bits named there, message `48 69`. -/
theorem test_bits :
    [0, 1, 7, 8, 9, 10, 15].map { blank with minMem := bytes [0x48, 0x69] }.bit =
      [false, true, false, false, true, true, true] := by decide

/-- SER3 to SER6, SER7: whole bytes, most significant bit first. -/
theorem test_byte_bits :
    [0x00, 0x7F, 0x05, 0x41, 0x31].map (fun v : Byte => (List.range 8).map (bitFromTop v)) =
      [[false, false, false, false, false, false, false, false],
       [false, true, true, true, true, true, true, true],
       [false, false, false, false, false, true, false, true],
       [false, true, false, false, false, false, false, true],
       [false, false, true, true, false, false, false, true]] := by decide

/-- The shift-register form, byte `41` (95_test_vectors 2.1): the load and first delivery, the second,
and the last. -/
theorem test_serializer_steps :
    let deliver (s : State) (j : Nat) :=
      nextBit s j fun b u => .next { u with done := b }
    ((nextOf (deliver b4a 0)).map fun u => (u.done, u.sr, u.sc)) = some (false, 0x82, 7) ∧
    ((nextOf (deliver { b4a with sr := 0x82, sc := 7 } 1)).map fun u => (u.done, u.sr, u.sc)) =
      some (true, 0x04, 6) ∧
    ((nextOf (deliver { b4a with sr := 0x80, sc := 1 } 7)).map fun u => (u.done, u.sr, u.sc)) =
      some (true, 0x00, 0) := by decide

/-- The accumulator trace (95_test_vectors 2.5): bits `0,1,0,0,0,0,0,1`. -/
theorem test_accumulator :
    [false, true, false, false, false, false, false, true].foldl
      (fun gs b => gs ++ [pushBit (gs.getLastD 0) b]) [] =
      ([0x00, 0x01, 0x02, 0x04, 0x08, 0x10, 0x20, 0x41] : List Byte) := by decide

/-- TRV1, TRV3, TRV5, TRV6 and the position of TRV10. -/
theorem test_cell_at :
    cellAt 2 3 7 = ⟨1, 0, 1⟩ ∧ cellAt 10 10 16 = ⟨0, 1, 6⟩ ∧ cellAt 10 10 100 = ⟨1, 0, 0⟩ ∧
    cellAt 10 10 299 = ⟨2, 9, 9⟩ ∧ cellAt 2 2 5 = ⟨1, 0, 1⟩ := by decide

/-- TRV2 (all 18 offsets), TRV3 to TRV6. -/
theorem test_addr :
    (List.range 18).map (addrAt 2 3 3) = [0, 3, 6, 9, 12, 15, 1, 4, 7, 10, 13, 16, 2, 5, 8, 11, 14, 17] ∧
    addrAt 10 10 3 16 = 48 ∧ addrAt 10 10 3 99 = 297 ∧ addrAt 10 10 3 100 = 1 ∧
    addrAt 10 10 3 299 = 299 := by decide

/-- The cursor form (95_test_vectors 2.2): from position 5 to 6, and past the last position. -/
theorem test_cursor :
    (⟨0, 1, 2⟩ : Triple).advance 2 3 = ⟨1, 0, 0⟩ ∧ (⟨2, 1, 2⟩ : Triple).advance 2 3 = ⟨3, 0, 0⟩ := by
  decide

/-- The `STATUS` words of 95_test_vectors, section 0. -/
theorem test_status_words :
    blank.statusWord = 0x00000000#32 ∧ { blank with phase := .eScan }.statusWord = 0x00000001#32 ∧
    { blank with done := true }.statusWord = 0x00000002#32 ∧
    ([.emptyMessage, .capacityExceeded, .unsupportedCharacter, .noTerminatorFound, .invalidOperation,
      .operandRange].map fun e => { blank with done := true, err := e }.statusWord) =
      [0x00000012#32, 0x00000022#32, 0x00000032#32, 0x00000042#32, 0x00000052#32, 0x00000062#32] := by
  decide

/-! ### Steps of the two commands -/

/-- The status that issuing a command leaves. -/
def issued (i : Instr) (s : State) : Option (Word × Phase) :=
  (nextOf (exec i s)).map fun t => (t.statusWord, t.phase)

/-- CMD6 (`OperandRange` before `EmptyMessage`), CMD10 (`MLEN` over `MIN_BYTES`), P6 (dispatch). -/
theorem test_embed_issue :
    issued .embed { blank with height := 10, width := 10, channels := 3 } = some (0x62, .ready) ∧
    issued .embed { blank with height := 1, width := 1, channels := 1, mlen := 5 } =
      some (0x62, .ready) ∧
    issued .embed b4a = some (0x01, .eCheck) := by decide

/-- CMD7 (exactly `PIX_CELLS` cells), CMD8 (one more), CMD9 (the product `2^32` does not wrap), CMD11
(`EXTRACT` does not check `MLEN`). -/
theorem test_extract_issue :
    issued .extract { blank with height := 4, width := 4, channels := 4 } = some (0x01, .xRead) ∧
    issued .extract { blank with height := 5, width := 13, channels := 1 } = some (0x62, .ready) ∧
    issued .extract { blank with height := 65536, width := 65536, channels := 1 } =
      some (0x62, .ready) ∧
    issued .extract { blank with mlen := 5 } = some (0x01, .xRead) := by decide

/-- B4a, B4b (15 cells), E1, E1b (empty before capacity), E2 (a dimension 0): the checks of `EMBED`. -/
theorem test_embed_check :
    issued .embed { b4a with phase := .eCheck } = some (0x01, .eScan) ∧
    issued .embed { b4a with phase := .eCheck, height := 5, width := 3 } = some (0x22, .ready) ∧
    issued .embed { b4a with phase := .eCheck, mlen := 0 } = some (0x12, .ready) ∧
    issued .embed { blank with phase := .eCheck } = some (0x12, .ready) ∧
    issued .embed { blank with phase := .eCheck, width := 5, channels := 3, mlen := 1 } =
      some (0x22, .ready) := by decide

/-- E3b (`80` is refused), E3c (`7F` passes), and the end of the pass. -/
theorem test_embed_scan :
    issued .embed { b4a with phase := .eScan, minMem := bytes [0x80] } = some (0x32, .ready) ∧
    ((nextOf (exec .embed { b4a with phase := .eScan, minMem := bytes [0x7F] })).map
      fun t => (t.phase, t.si, t.port)) = some (.eScan, 1, [.read .min 0]) ∧
    ((nextOf (exec .embed { b4a with phase := .eScan, si := 1, pos := 9, sc := 3 })).map
      fun t => (t.phase, t.pos, t.sc)) = some (.eWrite, 0, 0) := by decide

/-- The buffer of P2 (2 by 3 by 3, a different value in every cell), in the write pass of message `41`. -/
def p2 : State :=
  { blank with
    phase := .eWrite, height := 2, width := 3, channels := 3, mlen := 1, minMem := bytes [0x41]
    pixMem := bytes [0x10, 0x11, 0x12, 0x13, 0x14, 0x15, 0x16, 0x17, 0x18, 0x19, 0x1A, 0x1B, 0x1C, 0x1D,
      0x1E, 0x1F, 0x20, 0x21] }

/-- P2, positions 3 and 7: the cell at offset 9 goes from `19` to `18`, the one at 4 from `14` to `15`;
its neighbours stay. -/
theorem test_embed_data_cells :
    ((nextOf (exec .embed { p2 with pos := 3, sr := 0x08, sc := 5 })).map fun t =>
      (t.byteAt .pix 9, t.byteAt .pix 10, t.pos, t.phase)) = some (0x18, 0x1A, 4, .eWrite) ∧
    ((nextOf (exec .embed { p2 with pos := 7, sr := 0x80, sc := 1 })).map fun t =>
      (t.byteAt .pix 4, t.byteAt .pix 3, t.sc, t.port)) =
      some (0x15, 0x13, 0, [.write .pix 4, .read .pix 4]) := by decide

/-- P2, position 8: the terminator cell at offset 7 already has LSB 1 and is written all the same
(42_embed R129 (f)). -/
theorem test_embed_terminator :
    (nextOf (exec .embed { p2 with pos := 8 })).map (fun t =>
      (t.byteAt .pix 7, t.statusWord, t.pos, t.port)) =
      some (0x17, 0x02, 9, [.write .pix 7, .read .pix 7]) := by decide

/-- A read pass over one group of 8 cells, seven of them read. -/
def lastBit (g v : Byte) : State :=
  { blank with
    phase := .xRead, height := 2, width := 4, channels := 1, pos := 7, g := g, gc := 7
    pixMem := bytes [0, 0, 0, 0, 0, 0, 0, v], moutMem := bytes [0xAA] }

/-- The eighth bit of `41` (95_test_vectors 2.5): the byte is emitted; only bit 0 of the cell counts
(X11). -/
theorem test_extract_emit :
    (nextOf (exec .extract (lastBit 0x20 0xFF))).map (fun t =>
      (t.byteAt .mout 0, t.n, t.g, t.gc, t.phase, t.olen)) = some (0x41, 1, 0, 0, .xRead, 0) := by
  decide

/-- X6 and X12: a first group that starts with 1 terminates with an empty message, `MOUT` untouched. -/
theorem test_extract_terminate :
    (nextOf (exec .extract (lastBit 0x40 0xFE))).map (fun t =>
      (t.byteAt .mout 0, t.olen, t.statusWord)) = some (0xAA, 0, 0x02) ∧
    (nextOf (exec .extract (lastBit 0x7F 0xFF))).map (fun t =>
      (t.byteAt .mout 0, t.olen, t.statusWord)) = some (0xAA, 0, 0x02) := by decide

/-- X4 (exhausted on a group boundary), X7 (no cells), X2 (a lone 1 in an incomplete group). -/
theorem test_extract_exhausted :
    issued .extract { lastBit 0x00 0x00 with pos := 8, n := 1, g := 0, gc := 0 } =
      some (0x42, .ready) ∧
    issued .extract { blank with phase := .xRead, width := 7, channels := 3 } = some (0x42, .ready) ∧
    (nextOf (exec .extract { blank with
      phase := .xRead, height := 3, width := 3, channels := 1, pos := 9, g := 1, gc := 1, n := 1
      olen := 5 })).map (fun t => (t.statusWord, t.olen)) = some (0x42, 0) := by decide

/-! ### The host -/

/-- CMD1 to CMD5: an illegal word completes at once, whatever the operands (CMD5: before
`OperandRange`). -/
theorem test_illegal_words :
    [0x00000000, 0x00000003, 0x80000001, 0x00000101, 0x00000007].map (fun w : Word =>
      (nextOf (step { blank with
        height := 10, width := 10, channels := 3, host := wr .cmd w })).map State.statusWord) =
      List.replicate 5 (some 0x52) := by decide

/-- P6: while BUSY `WR HEIGHT` and `WR CMD` are ignored, `RD CMD` gives 0, `RD STATUS` gives 1. -/
theorem test_busy_registers :
    nextOf (step { b4a with phase := .eScan, host := wr .height 99 }) = some { b4a with phase := .eScan } ∧
    nextOf (step { b4a with phase := .eScan, host := wr .cmd 2 }) = some { b4a with phase := .eScan } ∧
    ((nextOf (step { b4a with phase := .eScan, host := rd .cmd })).map State.seen) =
      some [.reg 0x00 0] ∧
    ((nextOf (step { b4a with phase := .eScan, host := rd .status })).map State.seen) =
      some [.reg 0x04 1] := by decide

/-- 20_memory R59, R53, R50: the three moves that stop. -/
theorem test_stops :
    step { b4a with phase := .eScan, host := [.memRead .pix 0] } = .refused .memoryWhileBusy ∧
    step { b4a with host := [.regRead 0x06 2] } = .refused .registerAccessShape ∧
    step { b4a with host := [.memWrite .pix 64 0] } = .fault (.noSuchLocation .pix 64) :=
  ⟨rfl, rfl, rfl⟩

/-- 30_encoding R84: `extract` reads `OLEN` and then `MOUT[0 .. OLEN-1]`, and only after a success. -/
theorem test_read_result :
    ((nextOf (step { b4a with done := true, olen := 2, host := [.readResult] })).map State.host) =
      some [.regRead 0x18 4, .memRead .mout 0, .memRead .mout 1] ∧
    ((nextOf (step { b4a with done := true, err := .noTerminatorFound, host := [.readResult] })).map
      State.host) = some [] := by decide

/-- 30_encoding R84: the macro `embed(41, 4, 4, 1)`. -/
theorem test_embed_macro :
    embedMacro [0x41] 4 4 1 =
      [.memWrite .min 0 0x41, .regWrite 0x14 4 1, .regWrite 0x08 4 4, .regWrite 0x0C 4 4,
       .regWrite 0x10 4 1, .regWrite 0x00 4 1, .wait, .regRead 0x04 4] := by decide

/-- The notation of 30_encoding R83: `ST`, `FILL`, `LD`, `engine x2`. -/
theorem test_notation :
    st .min 0 [0x48, 0x49] = [.memWrite .min 0 0x48, .memWrite .min 1 0x49] ∧
    fill .pix 3 4 0xFF = [.memWrite .pix 3 0xFF, .memWrite .pix 4 0xFF] ∧
    ld .mout 0 1 = [.memRead .mout 0, .memRead .mout 1] ∧ engineX 2 = [.engine, .engine] := by decide

/-- A write keeps the offsets rising, in front, in the middle, at the end, and over an old byte. -/
theorem test_memory_put :
    (bytes [1, 2]).put 0 9 = [(0, 9), (1, 2)] ∧ Memory.put [(2, 7)] 1 9 = [(1, 9), (2, 7)] ∧
    Memory.put [(2, 7), (5, 8)] 3 9 = [(2, 7), (3, 9), (5, 8)] ∧
    Memory.put [(2, 7)] 6 9 = [(2, 7), (6, 9)] := by decide

/-- A word placed where the next one is taken is run by the very next step after reset: P-vectors
CMD13, CMD14 issue after reset (70_reset_and_hazards R198), and an illegal word does not run. -/
theorem test_fetch_word :
    ((nextOf (step (State.reset.withFetchWord 32 1))).map State.phase) = some .eCheck ∧
    ((nextOf (step (State.reset.withFetchWord 32 2))).map State.phase) = some .xRead ∧
    ((nextOf (step (State.reset.withFetchWord 32 3))).map State.statusWord) = some 0x52 := by decide

/-! ### Witnesses: states and operands that meet the hypotheses of the statements

One theorem per statement with hypotheses, named after it; a statement with several clauses has a
witness for each, at the ends of its ranges. -/

/-- The clauses of the decoder: a legal word of each kind, and illegal ones next to them. -/
theorem test_witness_DecoderComparesWholeWord :
    (0x00000000#32 ≠ 0x00000001#32 ∧ 0x00000000#32 ≠ 0x00000002#32) ∧
    (0x00000003#32 ≠ 0x00000001#32 ∧ 0x00000003#32 ≠ 0x00000002#32) ∧
    (0x00000101#32 ≠ 0x00000001#32 ∧ 0x00000101#32 ≠ 0x00000002#32) := by decide

theorem test_witness_DecodeEncodeAgree :
    Instr.embed.wf = true ∧ Instr.extract.wf = true ∧
    decode 0x00000001#32 = .legal .embed ∧ decode 0x00000002#32 = .legal .extract := by decide

theorem test_witness_IllegalWordRaisesInvalidOperation :
    blank.phase = .ready ∧
    { blank with host := [.regWrite 0x00 4 0x00000003#32] }.host =
      .regWrite 0x00 4 0x00000003#32 :: [] ∧
    0x00000003#32 ≠ 0x00000001#32 ∧ 0x00000003#32 ≠ 0x00000002#32 := by decide

/-- 65 cells of 64; 5 message bytes of 4. -/
theorem test_witness_OperandRangeRaisedAtIssue :
    { blank with height := 5, width := 13, channels := 1 }.phase = .ready ∧
    { blank with height := 5, width := 13, channels := 1 }.cells > blank.cfg.pixCells ∧
    { blank with mlen := 5 }.phase = .ready ∧
    { blank with mlen := 5 }.msgLen > blank.cfg.minBytes := by decide

/-- Exactly 64 cells of 64 and 4 message bytes of 4. -/
def full : State := { blank with height := 4, width := 4, channels := 4, mlen := 4 }

theorem test_witness_EmbedIssueDispatches :
    full.phase = .ready ∧ full.cells ≤ full.cfg.pixCells ∧ full.msgLen ≤ full.cfg.minBytes := by decide

theorem test_witness_ExtractIssueDispatches :
    full.phase = .ready ∧ full.cells ≤ full.cfg.pixCells := by decide

/-- `8·MLEN + 8` is one more than the cells, and exactly the cells. -/
theorem test_witness_EmbedCheckStep :
    { blank with phase := .eCheck }.phase = .eCheck ∧ blank.msgLen = 0 ∧
    { b4a with phase := .eCheck, height := 5, width := 3 }.phase = .eCheck ∧
    { b4a with phase := .eCheck, height := 5, width := 3 }.msgLen ≠ 0 ∧
    8 * { b4a with phase := .eCheck, height := 5, width := 3 }.msgLen + 8 =
      { b4a with phase := .eCheck, height := 5, width := 3 }.cells + 1 ∧
    { b4a with phase := .eCheck }.phase = .eCheck ∧ { b4a with phase := .eCheck }.msgLen ≠ 0 ∧
    8 * { b4a with phase := .eCheck }.msgLen + 8 = { b4a with phase := .eCheck }.cells := by decide

/-- The message byte `7F` is still legal, `80` is not. -/
theorem test_witness_EmbedScanStep :
    ({ b4a with phase := .eScan, si := 1 }.Inv ∧ { b4a with phase := .eScan, si := 1 }.si = b4a.msgLen) ∧
    ({ b4a with phase := .eScan, minMem := bytes [0x80] }.Inv ∧
      { b4a with phase := .eScan, minMem := bytes [0x80] }.si ≠ b4a.msgLen ∧
      ({ b4a with phase := .eScan, minMem := bytes [0x80] }.byteAt .min 0).getLsbD 7 = true) ∧
    ({ b4a with phase := .eScan, minMem := bytes [0x7F] }.Inv ∧
      { b4a with phase := .eScan, minMem := bytes [0x7F] }.si ≠ b4a.msgLen ∧
      ({ b4a with phase := .eScan, minMem := bytes [0x7F] }.byteAt .min 0).getLsbD 7 = false) :=
  ⟨⟨inv_scan rfl (by decide) (by decide), by decide⟩,
   ⟨inv_scan rfl (by decide) (by decide), by decide, by decide⟩,
   ⟨inv_scan rfl (by decide) (by decide), by decide, by decide⟩⟩

/-- The first data cell, the last one, and the terminator cell. -/
theorem test_witness_EmbedWriteStep :
    (p2.Inv ∧ p2.phase = .eWrite ∧ p2.pos < 8 * p2.msgLen) ∧
    ({ p2 with pos := 7, sc := 1, sr := 0x80 }.Inv ∧ 7 < 8 * p2.msgLen) ∧
    ({ p2 with pos := 8 }.Inv ∧ { p2 with pos := 8 }.pos = 8 * p2.msgLen) :=
  ⟨⟨inv_write rfl (by decide) (by decide), by decide⟩,
   ⟨inv_write rfl (by decide) (by decide), by decide⟩,
   ⟨inv_write rfl (by decide) (by decide), by decide⟩⟩

/-- A step of `EMBED` in each of its phases, the write pass on a data cell and on the last. -/
theorem test_witness_EmbedFrame :
    (∃ t, exec .embed b4a = .next t) ∧ (∃ t, exec .embed { b4a with phase := .eCheck } = .next t) ∧
    (∃ t, exec .embed { b4a with phase := .eScan } = .next t) ∧ (∃ t, exec .embed p2 = .next t) ∧
    (∃ t, exec .embed { p2 with pos := 8 } = .next t) :=
  ⟨⟨_, rfl⟩, ⟨_, rfl⟩, ⟨_, rfl⟩, ⟨_, rfl⟩, ⟨_, rfl⟩⟩

/-- Exhausted; the first bit of a group; the last bit of a terminator and of a message byte. -/
theorem test_witness_ExtractReadStep :
    ({ lastBit 0 0 with pos := 8, n := 1, gc := 0 }.Inv ∧
      { lastBit 0 0 with pos := 8, n := 1, gc := 0 }.pos = (lastBit 0 0).cells) ∧
    ({ lastBit 0 0 with pos := 0, gc := 0 }.Inv ∧ (0 : Nat) ≠ (lastBit 0 0).cells ∧
      { lastBit 0 0 with pos := 0, gc := 0 }.gc < 7) ∧
    ((lastBit 0x40 0).Inv ∧ (lastBit 0x40 0).pos ≠ (lastBit 0x40 0).cells ∧ ¬ (lastBit 0x40 0).gc < 7 ∧
      (((lastBit 0x40 0).g <<< 1) |||
        ((lastBit 0x40 0).byteAt .pix ((lastBit 0x40 0).addr 7) &&& 0x01)).getLsbD 7 = true) ∧
    ((lastBit 0x3F 1).Inv ∧ (lastBit 0x3F 1).pos ≠ (lastBit 0x3F 1).cells ∧ ¬ (lastBit 0x3F 1).gc < 7 ∧
      (((lastBit 0x3F 1).g <<< 1) |||
        ((lastBit 0x3F 1).byteAt .pix ((lastBit 0x3F 1).addr 7) &&& 0x01)).getLsbD 7 = false) :=
  ⟨⟨inv_read rfl (by decide) (by decide), by decide⟩,
   ⟨inv_read rfl (by decide) (by decide), by decide⟩,
   ⟨inv_read rfl (by decide) (by decide), by decide⟩,
   ⟨inv_read rfl (by decide) (by decide), by decide⟩⟩

/-- A step of `EXTRACT` at issue, in a group, at its end, and at the end of the Traversal. -/
theorem test_witness_ExtractFrame :
    (∃ t, exec .extract b4a = .next t) ∧
    (∃ t, exec .extract { lastBit 0 0 with pos := 6, gc := 6 } = .next t) ∧
    (∃ t, exec .extract (lastBit 0x20 1) = .next t) ∧
    (∃ t, exec .extract { lastBit 0 0 with pos := 8 } = .next t) :=
  ⟨⟨_, rfl⟩, ⟨_, rfl⟩, ⟨_, rfl⟩, ⟨_, rfl⟩⟩

/-- Vector X9: the message `7F`, the largest byte, and a terminator group of `FF`. -/
def x9 : State := { b4a with pixMem := bytes [0, 1, 1, 1, 1, 1, 1, 1, 1, 1, 1, 1, 1, 1, 1, 1] }

/-- The largest byte a step can emit, over another and over itself; and X9, a whole command. -/
theorem test_witness_ExtractedBytesBelow128 :
    (∃ t, exec .extract (lastBit 0x3F 1) = .next t ∧
      t.byteAt .mout 0 ≠ (lastBit 0x3F 1).byteAt .mout 0) ∧
    (∃ t, exec .extract { lastBit 0x3F 1 with moutMem := bytes [0x7F] } = .next t ∧
      t.port = [.write .mout 0, .read .pix 7]) ∧
    (x9.Inv ∧ x9.phase = .ready ∧ ∃ t, execTimes .extract (x9.extractSteps + 1) x9 = .next t ∧
      t.err = .ok ∧ 0 < t.olen.toNat) :=
  ⟨⟨_, rfl, by decide⟩, ⟨_, rfl, rfl⟩, ⟨inv_ready rfl (by decide), rfl, _, rfl, rfl, by decide⟩⟩

theorem test_witness_ExtractIgnoresMessageOperands :
    ∃ t, exec .extract (lastBit 0x20 1) = .next t := ⟨_, rfl⟩

/-- Two buffers of one cell that differ in every bit but the last. -/
theorem test_witness_ExtractSeesOnlyLsbs :
    (∀ a, { blank with phase := .xRead, pixMem := bytes [0xFF] }.byteAt .pix a &&& 0x01 =
      { blank with phase := .xRead, pixMem := bytes [0x01] }.byteAt .pix a &&& 0x01) ∧
    ∃ t, exec .extract { blank with
      phase := .xRead, height := 1, width := 1, channels := 1, pixMem := bytes [0x01] } = .next t := by
  refine ⟨fun a => ?_, ⟨_, rfl⟩⟩
  cases a with
  | zero => decide
  | succ a => rfl

/-- Both forms of a delivery; a byte boundary, the middle of a byte, and the last bit of the last byte of `MIN`. -/
theorem test_witness_SerializerDeliversBitstream :
    (p2.sc = 0 ∧ 31 / 8 < p2.cfg.minBytes) ∧ { p2 with sc := 7 }.sc ≠ 0 ∧
    (p2.serializerOk ∧ p2.pos / 8 < p2.cfg.minBytes) ∧
    ({ p2 with pos := 1, sc := 7, sr := 0x82 }.serializerOk ∧ 1 / 8 < p2.cfg.minBytes) ∧
    ({ p2 with mlen := 4, minMem := bytes [0, 0, 0, 1], pos := 31, sc := 1, sr := 0x80 }.serializerOk ∧
      31 / 8 < p2.cfg.minBytes) := by decide

/-- The first and the last position, and the last triple, of a 2 by 3 by 3 buffer. -/
theorem test_witness_PositionAndTripleCorrespond :
    0 < 2 * 3 * 3 ∧ 17 < 2 * 3 * 3 ∧
    ((⟨2, 1, 2⟩ : Triple).ch < 3 ∧ (⟨2, 1, 2⟩ : Triple).row < 2 ∧ (⟨2, 1, 2⟩ : Triple).col < 3) := by
  decide

/-- Two equal positions, and the last offset. -/
theorem test_witness_AddressesArePermutation :
    (17 < 2 * 3 * 3 ∧ addrAt 2 3 3 17 = addrAt 2 3 3 17) ∧ 17 < 2 * 3 * 3 := by decide

theorem test_witness_CursorFormAgrees : 17 < 2 * 3 * 3 ∧ 0 < 2 ∧ 0 < 3 := by decide

/-- Inside a channel, and at the end of one (also of the last). -/
theorem test_witness_AddressStridePattern :
    (4 < 2 * 3 * 3 ∧ (4 + 1) % (2 * 3) ≠ 0) ∧ (5 < 2 * 3 * 3 ∧ (5 + 1) % (2 * 3) = 0) ∧
    (17 < 2 * 3 * 3 ∧ (17 + 1) % (2 * 3) = 0) := by decide

/-- A read of every register, and of the first offset that is none. -/
theorem test_witness_ReadyRegisterReads :
    { b4a with host := [.regRead 0x18 4] }.phase = .ready ∧
    { b4a with host := [.regRead 0x18 4] }.host = .regRead 0x18 4 :: [] ∧
    ([0x00, 0x04, 0x08, 0x0C, 0x10, 0x14, 0x18, 0x1C].zip
      [0, b4a.statusWord, b4a.height, b4a.width, b4a.channels, b4a.mlen, b4a.olen, 0]).all
      (fun x : Nat × Word => decide
        ((x.1 = 0x00 ∧ x.2 = 0) ∨ (x.1 = 0x04 ∧ x.2 = b4a.statusWord) ∨ (x.1 = 0x08 ∧ x.2 = b4a.height) ∨
          (x.1 = 0x0C ∧ x.2 = b4a.width) ∨ (x.1 = 0x10 ∧ x.2 = b4a.channels) ∨
          (x.1 = 0x14 ∧ x.2 = b4a.mlen) ∨ (x.1 = 0x18 ∧ x.2 = b4a.olen) ∨
          (0x1C ≤ x.1 ∧ x.1 % 4 = 0 ∧ x.2 = 0))) = true := by decide

/-- A write to each register but `CMD`, and to the first offset that is none. -/
theorem test_witness_ReadyRegisterWrites :
    [0x04, 0x08, 0x0C, 0x10, 0x14, 0x18, 0x1C].all (fun off : Nat =>
      decide ({ b4a with host := [.regWrite off 4 0xFFFFFFFF] }.phase = .ready ∧
        { b4a with host := [.regWrite off 4 0xFFFFFFFF] }.host = .regWrite off 4 0xFFFFFFFF :: [])) = true ∧
    0x1C ≤ 0x1C ∧ 0x1C % 4 = 0 := by decide

/-- The block of P6 in its scan pass, with one host action to come. -/
def scanning (x : HostAction) : State := { b4a with phase := .eScan, host := [x] }

theorem scanning_inv (x : HostAction) : (scanning x).Inv :=
  (inv_scan rfl (by decide) (by decide) : (scanning .engine).Inv)

/-- Every action while BUSY, a wait, an engine marker and the end of `extract` named; offsets 0x00,
0x04 and 0x1C. -/
theorem test_witness_BusyHostActions :
    (∀ x, (scanning x).Inv ∧ (scanning x).phase ≠ .ready ∧ (scanning x).host = x :: []) ∧
    (scanning .wait).host = .wait :: [] ∧ (scanning .engine).host = .engine :: [] ∧
    (scanning .readResult).host = .readResult :: [] ∧
    0x00 % 4 = 0 ∧ (0x04 = 0x04 ∧ 0x00000001#32 = 0x00000001#32) ∧ (0x1C ≤ 0x1C ∧ 0x1C % 4 = 0) :=
  ⟨fun x => ⟨scanning_inv x, by show Phase.eScan ≠ .ready; decide, rfl⟩, by decide⟩

/-- A narrow access, and a misaligned one. -/
theorem test_witness_PartialRegisterAccessRefused :
    ((2 ≠ 4 ∨ 0x08 % 4 ≠ 0) ∧ (scanning (.regWrite 0x08 2 0)).host = .regWrite 0x08 2 0 :: []) ∧
    ((4 ≠ 4 ∨ 0x09 % 4 ≠ 0) ∧ (scanning (.regRead 0x09 4)).host = .regRead 0x09 4 :: []) := by decide

/-- The last offset of `PIX`, and the first that does not exist. -/
theorem test_witness_ReadyMemoryAccess :
    (blank.phase = .ready ∧ { blank with host := [.memRead .pix 63] }.host = .memRead .pix 63 :: [] ∧
      63 < blank.cfg.size .pix) ∧
    ({ blank with host := [.memWrite .pix 63 7] }.host = .memWrite .pix 63 7 :: []) ∧
    ({ blank with host := [.memRead .pix 64] }.host = .memRead .pix 64 :: [] ∧
      ¬ 64 < blank.cfg.size .pix) := by decide

/-- Reset while READY and while BUSY. -/
theorem test_witness_ResetClearsRegisters :
    (scanning .reset).host = .reset :: [] ∧ { b4a with host := [.reset] }.host = .reset :: [] := by decide

theorem test_witness_StepIssuesDecodedCommand :
    decode 0x00000001#32 = .legal .embed ∧ decode 0x00000002#32 = .legal .extract ∧
    { b4a with host := [.regWrite 0x00 4 1] }.phase = .ready ∧
    { b4a with host := [.regWrite 0x00 4 1] }.host = .regWrite 0x00 4 1 :: [] := by decide

theorem test_witness_StepRunsEngine :
    { b4a with phase := .eCheck }.phase.command = some .embed ∧
    (lastBit 0 0).phase.command = some .extract ∧ (lastBit 0 0).host = [] ∧
    (scanning .wait).host = .wait :: [] ∧ (scanning .engine).host = .engine :: [] := by decide

theorem test_witness_ReadyBlockIdles :
    (blank.phase = .ready ∧ blank.host = []) ∧
    ({ blank with done := true, host := [.wait] }.host = .wait :: [] ∧
      { blank with done := true, host := [.wait] }.done = true) ∧
    ({ blank with host := [.wait] }.done = false) ∧
    { blank with host := [.engine] }.host = .engine :: [] ∧
    ({ blank with olen := 2, host := [.readResult] }.host = .readResult :: [] ∧
      { blank with olen := 2, host := [.readResult] }.err = .ok) ∧
    { blank with done := true, err := .noTerminatorFound, host := [.readResult] }.err ≠ .ok := by decide

/-- The largest sizes that 00_scope R8 allows, and the smallest. -/
theorem test_witness_PowerOnMeetsInvariant :
    (⟨2 ^ 35 - 1, 2 ^ 32 - 1, 2 ^ 32 - 1⟩ : Config).ok = true ∧ (⟨0, 0, 0⟩ : Config).ok = true := by decide

/-- An engine step, a host action and a reset, each from a state that meets the invariant. -/
theorem test_witness_StepKeepsInvariant :
    ((scanning .engine).Inv ∧ ∃ t, step (scanning .engine) = .next t) ∧
    ((scanning .reset).Inv ∧ ∃ t, step (scanning .reset) = .next t) ∧
    ((lastBit 0x20 1).Inv ∧ ∃ t, step (lastBit 0x20 1) = .next t) :=
  ⟨⟨scanning_inv _, _, rfl⟩, ⟨scanning_inv _, _, rfl⟩, ⟨inv_read rfl (by decide) (by decide), _, rfl⟩⟩

/-- A running block in each of its four phases. -/
theorem test_witness_RunningEngineNeverStops :
    ({ b4a with phase := .eCheck }.Inv ∧ (scanning .wait).Inv ∧ p2.Inv ∧ (lastBit 0 0).Inv) ∧
    Phase.eCheck ≠ .ready ∧ (scanning .wait).phase ≠ .ready ∧ p2.phase ≠ .ready ∧
    (lastBit 0 0).phase ≠ .ready :=
  ⟨⟨inv_check rfl (by decide) (by decide), scanning_inv _, inv_write rfl (by decide) (by decide),
    inv_read rfl (by decide) (by decide)⟩, by decide⟩

/-- A move that goes on, and moves that stop: a memory access and `readResult` while BUSY, an offset that
does not exist. -/
theorem test_witness_StopsOnlyOnIllegalHostMove :
    ((scanning .wait).Inv ∧ (scanning .wait).hostMoveOk = true) ∧
    ((scanning (.memRead .pix 0)).Inv ∧ (scanning (.memRead .pix 0)).hostMoveOk = false) ∧
    ((scanning .readResult).Inv ∧ (scanning .readResult).hostMoveOk = false) ∧
    ({ b4a with host := [.memRead .pix 64] }.Inv ∧
      { b4a with host := [.memRead .pix 64] }.hostMoveOk = false) :=
  ⟨⟨scanning_inv _, by decide⟩, ⟨scanning_inv _, by decide⟩, ⟨scanning_inv _, by decide⟩,
   ⟨inv_ready rfl (by decide), by decide⟩⟩

/-- From READY: to itself by an illegal word, by operands out of range and by a write of a register; on
to each command. -/
theorem test_witness_PhaseGraph_ready :
    (∃ t, { b4a with host := wr .cmd 3 }.Inv ∧ step { b4a with host := wr .cmd 3 } = .next t ∧
      t.phase = .ready) ∧
    (∃ t, { b4a with mlen := 5, host := wr .cmd 1 }.Inv ∧
      step { b4a with mlen := 5, host := wr .cmd 1 } = .next t ∧ t.phase = .ready) ∧
    (∃ t, { b4a with host := wr .height 9 }.Inv ∧ step { b4a with host := wr .height 9 } = .next t ∧
      t.phase = .ready) ∧
    (∃ t, { b4a with host := wr .cmd 1 }.Inv ∧ step { b4a with host := wr .cmd 1 } = .next t ∧
      t.phase = .eCheck) ∧
    (∃ t, { b4a with host := wr .cmd 2 }.Inv ∧ step { b4a with host := wr .cmd 2 } = .next t ∧
      t.phase = .xRead) :=
  ⟨⟨_, inv_ready rfl (by decide), rfl, rfl⟩, ⟨_, inv_ready rfl (by decide), rfl, rfl⟩,
   ⟨_, inv_ready rfl (by decide), rfl, rfl⟩, ⟨_, inv_ready rfl (by decide), rfl, rfl⟩,
   ⟨_, inv_ready rfl (by decide), rfl, rfl⟩⟩

/-- From E_CHECK back (B4b) and on; from E_SCAN to itself, back (E3b) and on. -/
theorem test_witness_PhaseGraph_checks :
    (∃ t, { b4a with phase := .eCheck, height := 5, width := 3 }.Inv ∧
      step { b4a with phase := .eCheck, height := 5, width := 3 } = .next t ∧ t.phase = .ready) ∧
    (∃ t, { b4a with phase := .eCheck }.Inv ∧ step { b4a with phase := .eCheck } = .next t ∧
      t.phase = .eScan) ∧
    (∃ t, { b4a with phase := .eScan }.Inv ∧ step { b4a with phase := .eScan } = .next t ∧
      t.phase = .eScan) ∧
    (∃ t, { b4a with phase := .eScan, minMem := bytes [0x80] }.Inv ∧
      step { b4a with phase := .eScan, minMem := bytes [0x80] } = .next t ∧ t.phase = .ready) ∧
    (∃ t, { b4a with phase := .eScan, si := 1 }.Inv ∧
      step { b4a with phase := .eScan, si := 1 } = .next t ∧ t.phase = .eWrite) :=
  ⟨⟨_, inv_check rfl (by decide) (by decide), rfl, rfl⟩,
   ⟨_, inv_check rfl (by decide) (by decide), rfl, rfl⟩,
   ⟨_, inv_scan rfl (by decide) (by decide), rfl, rfl⟩,
   ⟨_, inv_scan rfl (by decide) (by decide), rfl, rfl⟩,
   ⟨_, inv_scan rfl (by decide) (by decide), rfl, rfl⟩⟩

/-- From E_WRITE to itself and back; from X_READ to itself inside a group and by an emitted byte, and
back by the terminator and by exhaustion. -/
theorem test_witness_PhaseGraph_passes :
    (∃ t, p2.Inv ∧ step p2 = .next t ∧ t.phase = .eWrite) ∧
    (∃ t, { p2 with pos := 8 }.Inv ∧ step { p2 with pos := 8 } = .next t ∧ t.phase = .ready) ∧
    (∃ t, { lastBit 0 0 with pos := 6, gc := 6 }.Inv ∧
      step { lastBit 0 0 with pos := 6, gc := 6 } = .next t ∧ t.phase = .xRead) ∧
    (∃ t, (lastBit 0x3F 1).Inv ∧ step (lastBit 0x3F 1) = .next t ∧ t.phase = .xRead) ∧
    (∃ t, (lastBit 0x40 0).Inv ∧ step (lastBit 0x40 0) = .next t ∧ t.phase = .ready ∧ t.err = .ok) ∧
    (∃ t, { lastBit 0 0 with pos := 8, n := 1, gc := 0 }.Inv ∧
      step { lastBit 0 0 with pos := 8, n := 1, gc := 0 } = .next t ∧ t.err = .noTerminatorFound) :=
  ⟨⟨_, inv_write rfl (by decide) (by decide), rfl, rfl⟩,
   ⟨_, inv_write rfl (by decide) (by decide), rfl, rfl⟩,
   ⟨_, inv_read rfl (by decide) (by decide), rfl, rfl⟩,
   ⟨_, inv_read rfl (by decide) (by decide), rfl, rfl⟩,
   ⟨_, inv_read rfl (by decide) (by decide), rfl, rfl, rfl⟩,
   ⟨_, inv_read rfl (by decide) (by decide), rfl, rfl⟩⟩

theorem test_witness_OperandsFixedWhileBusy :
    (scanning (.regWrite 0x08 4 99)).phase ≠ .ready ∧
    (∃ t, step (scanning (.regWrite 0x08 4 99)) = .next t) ∧
    (scanning (.regWrite 0x08 4 99)).host.head? ≠ some .reset :=
  ⟨by decide, ⟨_, rfl⟩, by decide⟩

theorem b4a_inv : b4a.Inv := inv_ready rfl (by decide)

theorem test_witness_EveryCommandEnds : b4a.Inv ∧ b4a.phase = .ready ∧ b4a.embedSteps = 12 :=
  ⟨b4a_inv, rfl, by decide⟩

/-- One failing `EMBED` of each kind. -/
theorem test_witness_FailedEmbedLeavesNoTrace :
    ({ b4a with mlen := 5 }.Inv ∧ { b4a with mlen := 5 }.embedError = some .operandRange) ∧
    (blank.Inv ∧ blank.embedError = some .emptyMessage) ∧
    ({ b4a with mlen := 2 }.Inv ∧ { b4a with mlen := 2 }.embedError = some .capacityExceeded) ∧
    ({ b4a with minMem := bytes [0x80] }.Inv ∧
      { b4a with minMem := bytes [0x80] }.embedError = some .unsupportedCharacter) :=
  ⟨⟨inv_ready rfl (by decide), by decide⟩, ⟨inv_ready rfl (by decide), by decide⟩,
   ⟨inv_ready rfl (by decide), by decide⟩, ⟨inv_ready rfl (by decide), by decide⟩⟩

/-- B4a: `8·MLEN + 8` is exactly the cells. -/
theorem test_witness_EmbedWritesFrame :
    b4a.Inv ∧ b4a.phase = .ready ∧ b4a.cells ≤ b4a.cfg.pixCells ∧ b4a.msgLen ≤ b4a.cfg.minBytes ∧
    b4a.msgLen ≠ 0 ∧ 8 * b4a.msgLen + 8 ≤ b4a.cells ∧
    ∀ i, i < b4a.msgLen → (b4a.byteAt .min i).toNat < 128 := ⟨b4a_inv, by decide⟩

/-- 65 cells of 64; X4 (the only group is data); X5 (the last group is the terminator). -/
theorem test_witness_ExtractBigStep :
    ({ blank with height := 5, width := 13, channels := 1 }.Inv ∧
      { blank with height := 5, width := 13, channels := 1 }.cells > blank.cfg.pixCells) ∧
    (b4a.Inv ∧ b4a.cells ≤ b4a.cfg.pixCells ∧ ∀ k, k < b4a.groups → b4a.lsbAt (8 * k) = false) ∧
    ({ b4a with pixMem := bytes [0, 0, 0, 0, 0, 0, 0, 1, 1, 0, 0, 0, 0, 0, 0, 0] }.Inv ∧
      1 < b4a.groups ∧
      { b4a with pixMem := bytes [0, 0, 0, 0, 0, 0, 0, 1, 1, 0, 0, 0, 0, 0, 0, 0] }.lsbAt (8 * 1) = true ∧
      ∀ j, j < 1 →
        { b4a with pixMem := bytes [0, 0, 0, 0, 0, 0, 0, 1, 1, 0, 0, 0, 0, 0, 0, 0] }.lsbAt (8 * j) =
          false) :=
  ⟨⟨inv_ready rfl (by decide), by decide⟩, ⟨b4a_inv, by decide⟩, ⟨inv_ready rfl (by decide), by decide⟩⟩

/-- The host stores again what an offset that it never wrote holds: `PIX` reads as before, and its list
is another. -/
def reload (s : State) : State := s.putByte .pix 20 (Config.powerOnByte .pix 20)

theorem reload_reads {s : State} (h : s.pixMem.find 20 = none) (a : Nat) :
    (reload s).byteAt .pix a = s.byteAt .pix a := by
  by_cases ha : a = 20
  · subst ha
    rw [reload, byteAt_putByte_same]
    simp [State.byteAt, State.mem, h]
  · exact byteAt_putByte_ne _ _ _ ha

/-- The whole run of B4a: 12 steps after the issue, and the buffer that the vector lists; `EXTRACT` may
follow at once, or after a reload that changes the list. -/
theorem test_witness_EmbedExtractRoundTrip :
    ∃ t, execTimes .embed (b4a.embedSteps + 1) b4a = .next t ∧ t.err = .ok ∧ t.phase = .ready ∧ t.Inv ∧
      t.pixMem = bytes [0, 1, 0, 0, 0, 0, 0, 1, 1, 0, 0, 0, 0, 0, 0, 0] ∧
      ((reload t).Inv ∧ (reload t).phase = .ready ∧ (reload t).cfg = t.cfg ∧
        (∀ a, (reload t).byteAt .pix a = t.byteAt .pix a) ∧ (reload t).pixMem ≠ t.pixMem ∧
        (reload t).height = t.height ∧ (reload t).width = t.width ∧
        (reload t).channels = t.channels) :=
  ⟨_, rfl, rfl, rfl, inv_ready rfl (by decide), by decide, inv_ready rfl (by decide), rfl, rfl,
    reload_reads rfl, fun h => absurd (congrArg List.length h) (by decide), rfl, rfl, rfl⟩

theorem test_witness_EmbedTwiceLeavesSameBuffer :
    b4a.Inv ∧ b4a.phase = .ready ∧ ∃ t, execTimes .embed (b4a.embedSteps + 1) b4a = .next t :=
  ⟨b4a_inv, rfl, test_witness_EmbedExtractRoundTrip.imp fun _ h => h.1⟩

theorem test_witness_EmbedAccessOrder :
    b4a.Inv ∧ b4a.phase = .ready ∧ ∃ t, execTimes .embed (b4a.embedSteps + 1) b4a = .next t :=
  test_witness_EmbedTwiceLeavesSameBuffer

/-- X6: a first group that terminates at once. -/
theorem test_witness_ExtractAccessOrder :
    { lastBit 0 0 with phase := .ready, pixMem := bytes [1, 0, 0, 0, 0, 0, 0, 0] }.Inv ∧
    ∃ t, execTimes .extract
      ({ lastBit 0 0 with phase := .ready, pixMem := bytes [1, 0, 0, 0, 0, 0, 0, 0] }.extractSteps + 1)
      { lastBit 0 0 with phase := .ready, pixMem := bytes [1, 0, 0, 0, 0, 0, 0, 0] } = .next t :=
  ⟨inv_ready rfl (by decide), _, rfl⟩

theorem test_witness_InternalRegistersDoNotMatter :
    b4a.phase = .ready ∧ (∃ t, execTimes .embed (1 + 1) b4a = .next t) ∧
    ∃ t, execTimes .extract (1 + 1) b4a = .next t := ⟨rfl, ⟨_, rfl⟩, ⟨_, rfl⟩⟩

/-- Each dimension 0 in turn, without and with a message. -/
theorem test_witness_EmptyTraversalFails :
    (blank.phase = .ready ∧ blank.height = 0 ∧ blank.msgLen = 0) ∧
    ({ b4a with width := 0 }.width = 0 ∧ { b4a with width := 0 }.msgLen ≠ 0 ∧
      { b4a with width := 0 }.msgLen ≤ b4a.cfg.minBytes) ∧
    { b4a with channels := 0 }.channels = 0 := by decide

end Sys2Proof.Tests
end

section
/-! The decoder on the opcode map's words and on all others (30_encoding R72 to R74), and the issue of
a command word by a write to `CMD` while READY (44_command R155). -/

namespace Sys2Proof

/-- 30_encoding R72, R74. -/
@[simp] theorem decode_encode (i : Instr) : decode (encode i) = .legal i := by
  cases i with
  | embed => rfl
  | extract => rfl

/-- 30_encoding R73: a word that is neither row of the opcode map. -/
theorem decode_of_ne {w : Word} (h1 : w ≠ 0x00000001#32) (h2 : w ≠ 0x00000002#32) :
    decode w = .illegal w := by
  rw [decode, if_neg h1, if_neg h2]

end Sys2Proof

namespace Sys2Proof.Machine

/-- While READY the host's next action is the whole step (44_command R158). -/
theorem step_of_ready {s : State} {x : HostAction} {rest : List HostAction}
    (hp : s.phase = .ready) (hh : s.host = x :: rest) :
    step s = hostReady x { s with host := rest } := by
  simp [step, systemStep, hh, not_busy_iff.mpr hp]

/-- A whole-register write to `CMD` while READY issues the word (44_command R155). -/
theorem hostReady_cmdWrite (w : Word) (s : State) :
    hostReady (.regWrite RegName.cmd.offset 4 w) s = issueWord w s := rfl

theorem issueWord_illegal {w v : Word} (s : State) (h : decode w = .illegal v) :
    issueWord w s = .next (raiseError .invalidOperation (beginIssue s)) := by
  rw [issueWord, h]

/-- On a READY block the clearing at issue and the `PHASE` of the raise leave no mark of their own: only
`DONE` and `ERR` change (60_exceptions R180). -/
theorem raiseError_beginIssue_of_ready {s : State} (e : ErrorKind) (hp : s.phase = .ready) :
    raiseError e (beginIssue s) = { s with done := true, err := e } := by
  rw [raiseError, beginIssue, ← hp]

end Sys2Proof.Machine

namespace Sys2Proof.Proofs.Encoding

open Sys2Proof Sys2Proof.Machine

/-- Settles O1: the two words are the encodings of their commands. -/
theorem commandWordsDecode : Obligations.CommandWordsDecode :=
  ⟨decode_encode .embed, decode_encode .extract⟩

/-- Settles O4: the write to `CMD` is the whole step, and issuing a word that does not decode raises
`InvalidOperation` at once. -/
theorem illegalWordRaisesInvalidOperation : Obligations.IllegalWordRaisesInvalidOperation := by
  intro s w rest hp hh h1 h2
  calc step s
      = hostReady (.regWrite RegName.cmd.offset 4 w) { s with host := rest } := step_of_ready hp hh
    _ = issueWord w { s with host := rest } := hostReady_cmdWrite w _
    _ = .next (raiseError .invalidOperation (beginIssue { s with host := rest })) :=
        issueWord_illegal _ (decode_of_ne h1 h2)
    _ = .next { s with host := rest, done := true, err := .invalidOperation } :=
        congrArg _ (raiseError_beginIssue_of_ready _ hp)

end Sys2Proof.Proofs.Encoding
end

section
/-! The bit-serializer's shift-register form against `bit(j)` (40_serializer R91, R93): what `SR` and
`SC` hold at a position the serializer is in step with, and one delivery from there. -/

namespace Sys2Proof.Machine

/-- 41_traversal R107: the two spellings of the payload bit. -/
theorem lsbOf_eq_getLsbD (v : Byte) : lsbOf v = v.getLsbD 0 := by
  have hv : v &&& 0x01 = (BitVec.ofBool (v.getLsbD 0)).setWidth 8 :=
    BitVec.and_one_eq_setWidth_ofBool_getLsbD
  rw [lsbOf, hv]
  cases v.getLsbD 0 with
  | false => rfl
  | true => rfl

theorem bitFromTop_eq_getLsbD (v : Byte) (t : Nat) : bitFromTop v t = v.getLsbD (7 - t) := by
  have hl : bitFromTop v t = lsbOf (v >>> (7 - t)) := rfl
  rw [hl, lsbOf_eq_getLsbD, BitVec.getLsbD_ushiftRight, Nat.add_zero]

/-- After `t` shifts the bit at the top is bit `7 - t` of the byte that was loaded. -/
theorem topBit_shiftLeft (v : Byte) {t : Nat} (ht : t < 8) : topBit (v <<< t) = bitFromTop v t := by
  have ht' : ¬ 7 < t := by omega
  simp only [topBit, bitFromTop_eq_getLsbD, BitVec.getLsbD_shiftLeft, ht', decide_false, decide_true,
    Nat.reduceLT, Bool.not_false, Bool.true_and]

@[simp] theorem serialized_byteAt (s : State) (j : Nat) (q : Space) (b : Nat) :
    (s.serialized j).byteAt q b = s.byteAt q b := by cases q <;> rfl

section inStep

variable {s : State} (h : s.serializerOk)
include h

/-- In step, `SC` is 0 exactly at the byte boundaries. -/
theorem sc_eq_zero_iff_of_serializerOk : s.sc = 0 ↔ s.pos % 8 = 0 := by
  obtain ⟨hmod, hsc, -⟩ := h
  omega

/-- In step, `SR` at the delivery is the current message byte with the bits already delivered shifted
out, whether it is loaded now or was before. -/
theorem srAt_of_serializerOk : s.srAt s.pos = s.byteAt .min (s.pos / 8) <<< (s.pos % 8) := by
  by_cases h0 : s.sc = 0
  · rw [State.srAt, if_pos h0, (sc_eq_zero_iff_of_serializerOk h).1 h0, BitVec.shiftLeft_zero]
  · obtain ⟨-, -, hsr⟩ := h
    rw [State.srAt, if_neg h0, hsr (Nat.pos_of_ne_zero h0)]

/-- 40_serializer R91, R93: in step, the bit at the top of `SR` is `bit(POS)`. -/
theorem topBit_srAt_of_serializerOk : topBit (s.srAt s.pos) = s.bit s.pos := by
  rw [srAt_of_serializerOk h, topBit_shiftLeft _ (Nat.mod_lt _ (by decide)), State.bit]

theorem serialPort_of_serializerOk :
    s.serialPort s.pos = if s.pos % 8 = 0 then .read .min (s.pos / 8) :: s.port else s.port := by
  simp only [State.serialPort, sc_eq_zero_iff_of_serializerOk h]

/-- In step, a delivery leaves the bits of the current message byte after position `POS`. -/
theorem serialized_sc_of_serializerOk : (s.serialized s.pos).sc = 7 - s.pos % 8 := by
  obtain ⟨hmod, hsc, -⟩ := h
  simp only [State.serialized]
  split <;> omega

theorem serialized_sr_of_serializerOk :
    (s.serialized s.pos).sr = s.byteAt .min (s.pos / 8) <<< (s.pos % 8 + 1) := by
  rw [BitVec.shiftLeft_add, ← srAt_of_serializerOk h]
  rfl

/-- A delivery at `POS` leaves the serializer in step with `POS + 1`: at the end of a byte `SC` is 0,
and inside a byte the next position lies in the same byte. -/
theorem serialized_serializerOk : { s.serialized s.pos with pos := s.pos + 1 }.serializerOk := by
  have hsc := serialized_sc_of_serializerOk h
  refine ⟨?_, ?_, fun hpos => ?_⟩
  · show (s.pos + 1 + (s.serialized s.pos).sc) % 8 = 0
    omega
  · show (s.serialized s.pos).sc ≤ 7
    omega
  · have hinside : s.pos % 8 < 7 := by
      have : 0 < (s.serialized s.pos).sc := hpos
      omega
    have hdiv : (s.pos + 1) / 8 = s.pos / 8 := by omega
    have hmod : (s.pos + 1) % 8 = s.pos % 8 + 1 := by omega
    show (s.serialized s.pos).sr = (s.serialized s.pos).byteAt .min ((s.pos + 1) / 8) <<< ((s.pos + 1) % 8)
    rw [serialized_sr_of_serializerOk h, serialized_byteAt, hdiv, hmod]

end inStep

/-- 40_serializer R93, at a byte boundary. -/
theorem nextBit_of_sc_eq_zero {s : State} {j : Nat} (rest : Bool → State → Res) (h0 : s.sc = 0)
    (hr : j / 8 < s.cfg.minBytes) :
    nextBit s j rest = rest (topBit (s.byteAt .min (j / 8))) { s with
      sr := shiftOut (s.byteAt .min (j / 8)), sc := 7, port := .read .min (j / 8) :: s.port } := by
  rw [nextBit_eq rest fun _ => hr, State.serialized, State.serialPort, State.srAt, if_pos h0,
    if_pos h0, if_pos h0]

/-- 40_serializer R93, inside a byte. -/
theorem nextBit_of_sc_ne_zero {s : State} (j : Nat) (rest : Bool → State → Res) (h0 : s.sc ≠ 0) :
    nextBit s j rest = rest (topBit s.sr) { s with sr := shiftOut s.sr, sc := s.sc - 1 } := if_neg h0

end Sys2Proof.Machine

namespace Sys2Proof.Proofs.Serializer

open Sys2Proof Sys2Proof.Machine

/-- Settles O19: the two forms of a delivery, and from a state in step the delivery of `bit(POS)`, whose
next state is `State.serialized`. -/
theorem serializerDeliversBitstream : Obligations.SerializerDeliversBitstream := by
  refine ⟨fun s j rest => ⟨nextBit_of_sc_eq_zero rest, nextBit_of_sc_ne_zero j rest⟩,
    fun s hok hr => ⟨s.serialized s.pos, fun rest => ?_, serialized_serializerOk hok, rfl,
      serialPort_of_serializerOk hok⟩⟩
  rw [nextBit_eq rest fun _ => hr, topBit_srAt_of_serializerOk hok]

end Sys2Proof.Proofs.Serializer
end

section
/-! The addresses of the Traversal (41_traversal R103), the cell primitives' effect on `PIX`
(R107 to R109), and what the invariant gives in the passes of `EMBED` (42_embed R119, R121). -/

namespace Sys2Proof.Machine

/-- 41_traversal R103: row and column together are the position within the channel's pass. -/
theorem addrAt_eq (h w c p : Nat) : addrAt h w c p = p % (h * w) * c + p / (h * w) := by
  have hrc : p % (h * w) / w * w + p % w = p % (h * w) := by
    rw [← Nat.mod_mul_left_mod p h w, Nat.div_add_mod']
  rw [addrAt, offsetOf, cellAt, hrc]

theorem addrAt_lt {h w c p : Nat} (hp : p < h * w * c) : addrAt h w c p < h * w * c := by
  have hch : p / (h * w) < c := Nat.div_lt_of_lt_mul hp
  have hrc : p % (h * w) < h * w := Nat.mod_lt p (Nat.pos_of_mul_pos_right (Nat.zero_lt_of_lt hp))
  calc addrAt h w c p
      = p % (h * w) * c + p / (h * w) := addrAt_eq h w c p
    _ < p % (h * w) * c + c := Nat.add_lt_add_left hch _
    _ = (p % (h * w) + 1) * c := (Nat.succ_mul _ c).symm
    _ ≤ h * w * c := Nat.mul_le_mul_right c hrc

/-- A position of the Traversal has the offset of a cell of the buffer. -/
theorem addr_lt_cells {s : State} {p : Nat} (hp : p < s.cells) : s.addr p < s.cells := addrAt_lt hp

/-- A cell update is the store between two records of the monitor. -/
theorem touched_eq (s : State) (a : Nat) (v : Byte) :
    s.touched a v = ((s.note (.read .pix a)).putByte .pix a v).note (.write .pix a) := rfl

@[simp] theorem touched_byteAt_same (s : State) (a : Nat) (v : Byte) :
    (s.touched a v).byteAt .pix a = v := by
  rw [touched_eq, note_byteAt, byteAt_putByte_same]

theorem touched_byteAt_ne (s : State) {a b : Nat} (v : Byte) (h : b ≠ a) :
    (s.touched a v).byteAt .pix b = s.byteAt .pix b := by
  rw [touched_eq, note_byteAt, byteAt_putByte_ne _ _ _ h, note_byteAt]

theorem afterData_byteAt_same (s : State) :
    s.afterData.byteAt .pix (s.addr s.pos) =
      withLsb (s.byteAt .pix (s.addr s.pos)) (topBit (s.srAt s.pos)) :=
  touched_byteAt_same (s.serialized s.pos) _ _

theorem afterData_byteAt_ne (s : State) {a : Nat} (h : a ≠ s.addr s.pos) :
    s.afterData.byteAt .pix a = s.byteAt .pix a :=
  touched_byteAt_ne (s.serialized s.pos) _ h

theorem afterTerminator_byteAt_same (s : State) :
    s.afterTerminator.byteAt .pix (s.addr s.bitLen) = forceLsb (s.byteAt .pix (s.addr s.bitLen)) :=
  touched_byteAt_same s _ _

theorem afterTerminator_byteAt_ne (s : State) {a : Nat} (h : a ≠ s.addr s.bitLen) :
    s.afterTerminator.byteAt .pix a = s.byteAt .pix a :=
  touched_byteAt_ne s _ h

/-- A delivery reads one message byte or none (40_serializer R93). -/
theorem serialPort_eq_append (s : State) (j : Nat) :
    ∃ reads, (reads = [] ∨ reads = [.read .min (j / 8)]) ∧ s.serialPort j = reads ++ s.port := by
  by_cases h0 : s.sc = 0
  · exact ⟨_, .inr rfl, if_pos h0⟩
  · exact ⟨_, .inl rfl, if_neg h0⟩

theorem embedCheck_of_empty {s : State} (h : s.msgLen = 0) :
    embedCheck s = raiseError .emptyMessage s := if_pos h

theorem embedCheck_of_tooLong {s : State} (h : s.msgLen ≠ 0) (hc : 8 * s.msgLen + 8 > s.cells) :
    embedCheck s = raiseError .capacityExceeded s := by
  rw [embedCheck, if_neg h, if_pos hc]

theorem embedCheck_of_fits {s : State} (h : s.msgLen ≠ 0) (hc : 8 * s.msgLen + 8 ≤ s.cells) :
    embedCheck s = { s with si := 0, phase := .eScan } := by
  rw [embedCheck, if_neg h, if_neg (Nat.not_lt.mpr hc)]

theorem exec_embed_of_eCheck {s : State} (hp : s.phase = .eCheck) :
    exec .embed s = .next (embedCheck s) := by
  simp only [exec, execEmbed, hp]

theorem exec_embed_of_eScan {s : State} (hp : s.phase = .eScan) : exec .embed s = embedScan s := by
  simp only [exec, execEmbed, hp]

theorem exec_embed_of_eWrite {s : State} (hp : s.phase = .eWrite) : exec .embed s = embedWrite s := by
  simp only [exec, execEmbed, hp]

theorem phaseOk_of_eScan {s : State} (hi : s.Inv) (hp : s.phase = .eScan) :
    s.cells ≤ s.cfg.pixCells ∧ s.msgLen ≤ s.cfg.minBytes ∧ s.frameFits ∧
      s.si ≤ s.msgLen ∧ s.plainBelow s.si := by
  obtain ⟨-, -, -, -, hok⟩ := hi
  rwa [State.phaseOk, hp] at hok

theorem phaseOk_of_eWrite {s : State} (hi : s.Inv) (hp : s.phase = .eWrite) :
    s.cells ≤ s.cfg.pixCells ∧ s.msgLen ≤ s.cfg.minBytes ∧ s.frameFits ∧
      s.pos ≤ s.bitLen ∧ s.plainBelow s.msgLen ∧ s.serializerOk := by
  obtain ⟨-, -, -, -, hok⟩ := hi
  rwa [State.phaseOk, hp] at hok

/-- In the validation pass the next message byte exists (42_embed R119). -/
theorem si_lt_minBytes_of_eScan {s : State} (hi : s.Inv) (hp : s.phase = .eScan)
    (hne : s.si ≠ s.msgLen) : s.si < s.cfg.minBytes := by
  obtain ⟨-, hmin, -, hsi, -⟩ := phaseOk_of_eScan hi hp
  exact Nat.lt_of_lt_of_le (Nat.lt_of_le_of_ne hsi hne) hmin

/-- In the write pass every position up to the terminator's first cell has its cell in `PIX`
(42_embed R121). -/
theorem addr_lt_pixCells_of_eWrite {s : State} (hi : s.Inv) (hp : s.phase = .eWrite) {p : Nat}
    (hle : p ≤ s.bitLen) : s.addr p < s.cfg.pixCells := by
  obtain ⟨hpix, -, ⟨-, hfit⟩, -⟩ := phaseOk_of_eWrite hi hp
  have hcell : p < s.cells := by
    rw [State.bitLen] at hle
    omega
  exact Nat.lt_of_lt_of_le (addr_lt_cells hcell) hpix

/-- In the write pass the message byte of a data position exists. -/
theorem pos_div_lt_minBytes_of_eWrite {s : State} (hi : s.Inv) (hp : s.phase = .eWrite)
    (hlt : s.pos < s.bitLen) : s.pos / 8 < s.cfg.minBytes := by
  obtain ⟨-, hmin, -⟩ := phaseOk_of_eWrite hi hp
  exact Nat.lt_of_lt_of_le (Nat.div_lt_of_lt_mul hlt) hmin

/-- 42_embed R121, on a data cell of a running `EMBED`. -/
theorem exec_embed_data {s : State} (hi : s.Inv) (hp : s.phase = .eWrite) (hlt : s.pos < s.bitLen) :
    exec .embed s = .next s.afterData := by
  rw [exec_embed_of_eWrite hp, embedWrite_data hlt (addr_lt_pixCells_of_eWrite hi hp hlt.le)
    fun _ => pos_div_lt_minBytes_of_eWrite hi hp hlt]

/-- 42_embed R121, R122, on the terminator cell of a running `EMBED`. -/
theorem exec_embed_terminator {s : State} (hi : s.Inv) (hp : s.phase = .eWrite)
    (heq : s.pos = s.bitLen) : exec .embed s = .next s.afterTerminator := by
  rw [exec_embed_of_eWrite hp,
    embedWrite_terminator heq.not_lt (addr_lt_pixCells_of_eWrite hi hp le_rfl)]

end Sys2Proof.Machine

namespace Sys2Proof.Proofs.Embed

open Sys2Proof Sys2Proof.Machine

/-- Settles O8: the three exclusive branches of `embedCheck`. -/
theorem embedCheckStep : Obligations.EmbedCheckStep := by
  intro s hp
  rw [exec_embed_of_eCheck hp]
  exact ⟨fun h => congrArg _ (embedCheck_of_empty h),
    fun h hc => congrArg _ (embedCheck_of_tooLong h hc),
    fun h hc => congrArg _ (embedCheck_of_fits h hc)⟩

/-- Settles O9: the invariant gives the message byte that is read; the test is on its bit 7. -/
theorem embedScanStep : Obligations.EmbedScanStep := by
  intro s hi hp
  rw [exec_embed_of_eScan hp]
  refine ⟨embedScan_done, fun hne hbit => ?illegal, fun hne hbit => ?legal⟩
  case illegal =>
    rw [embedScan_byte hne (si_lt_minBytes_of_eScan hi hp hne), topBit, if_pos hbit]
    rfl
  case legal =>
    rw [embedScan_byte hne (si_lt_minBytes_of_eScan hi hp hne), topBit, hbit]
    rfl

/-- Settles O10: the invariant puts the address inside `PIX` and the serializer in step, so that the
bit at the top of `SR` is `bit(POS)`. -/
theorem embedWriteStep : Obligations.EmbedWriteStep := by
  intro s hi hp
  obtain ⟨-, -, -, -, -, hserial⟩ := phaseOk_of_eWrite hi hp
  refine ⟨fun hlt => ?data, fun heq => ?terminator⟩
  case data =>
    have hcell := afterData_byteAt_same s
    rw [topBit_srAt_of_serializerOk hserial] at hcell
    obtain ⟨reads, hreads, hport⟩ := serialPort_eq_append s s.pos
    exact ⟨s.afterData, exec_embed_data hi hp hlt, hcell, fun _ => afterData_byteAt_ne s, rfl,
      reads, hreads, congrArg (fun l => _ :: _ :: l) hport⟩
  case terminator =>
    have hend : s.pos = s.bitLen := heq
    rw [hend]
    exact ⟨s.afterTerminator, exec_embed_terminator hi hp hend, afterTerminator_byteAt_same s,
      fun _ => afterTerminator_byteAt_ne s, rfl⟩

end Sys2Proof.Proofs.Embed
end

section
/-! The group accumulation of `EXTRACT` (43_extract R138), and what the invariant gives in its read pass
(43_extract R137, R140). -/

namespace Sys2Proof.Machine

/-- 43_extract R138: shifting a bit in is the library's shift with that bit at the low end. -/
theorem pushBit_eq_shiftConcat (g : Byte) (b : Bool) : pushBit g b = g.shiftConcat b := by
  refine BitVec.eq_of_getLsbD_eq fun i hi => ?_
  cases i with
  | zero => cases b <;> simp [pushBit, bitByte]
  | succ i => cases b <;> simp [pushBit, bitByte, hi]

theorem toNat_pushBit (g : Byte) (b : Bool) :
    (pushBit g b).toNat = (g.toNat * 2 + b.toNat) % 2 ^ 8 := by
  rw [pushBit_eq_shiftConcat, BitVec.toNat_shiftConcat, Nat.shiftLeft_eq, Nat.pow_one]

/-- 43_extract R138: no 1 bit of a group in progress is dropped. -/
theorem toNat_pushBit_of_lt {g : Byte} (b : Bool) (h : g.toNat < 128) :
    (pushBit g b).toNat = 2 * g.toNat + b.toNat := by
  have hb := b.toNat_le
  rw [toNat_pushBit, Nat.mod_eq_of_lt (by omega), Nat.mul_comm]

theorem bitByte_eq_setWidth_ofBool (b : Bool) : bitByte b = (BitVec.ofBool b).setWidth 8 := by
  cases b with
  | false => rfl
  | true => rfl

/-- 41_traversal R107: the payload bit as a byte is the masked cell. -/
theorem bitByte_lsbOf (v : Byte) : bitByte (lsbOf v) = v &&& 0x01 := by
  rw [bitByte_eq_setWidth_ofBool, lsbOf_eq_getLsbD]
  exact BitVec.and_one_eq_setWidth_ofBool_getLsbD.symm

theorem pushBit_lsbAt (s : State) (g : Byte) (p : Nat) :
    pushBit g (s.lsbAt p) = (g <<< 1) ||| (s.byteAt .pix (s.addr p) &&& 0x01) := by
  rw [pushBit, State.lsbAt, bitByte_lsbOf]

/-- 43_extract R138: after the first `k` bits of a byte, bit 7 first, the group holds its `k` high
bits. -/
theorem foldl_pushBit_bitFromTop (v : Byte) {k : Nat} (hk : k ≤ 8) :
    (List.range k).foldl (fun g t => pushBit g (bitFromTop v t)) 0 = v >>> (8 - k) := by
  induction k with
  | zero => exact (BitVec.ushiftRight_eq_zero (Nat.le_refl 8)).symm
  | succ k ih =>
    have hpos : 0 < 8 - k := by omega
    have hlow : 7 - k = 8 - k - 1 := by omega
    calc (List.range (k + 1)).foldl (fun g t => pushBit g (bitFromTop v t)) 0
        = pushBit (v >>> (8 - k)) (bitFromTop v k) := by
          rw [List.range_succ, List.foldl_concat, ih (by omega)]
      _ = (v >>> (8 - k)).shiftConcat (v.getLsbD (8 - k - 1)) := by
          rw [pushBit_eq_shiftConcat, bitFromTop_eq_getLsbD, hlow]
      _ = v >>> (8 - (k + 1)) := (BitVec.shiftRight_sub_one_eq_shiftConcat v hpos).symm

/-- The byte a group writes is read back at `MOUT[N]` (43_extract R140). -/
theorem afterEmit_byteAt_same (s : State) :
    s.afterEmit.byteAt .mout s.n = pushBit s.g (s.lsbAt s.pos) :=
  byteAt_putByte_same s .mout s.n _

theorem afterEmit_byteAt_ne (s : State) {a : Nat} (h : a ≠ s.n) :
    s.afterEmit.byteAt .mout a = s.byteAt .mout a :=
  byteAt_putByte_ne s .mout _ h

theorem exec_extract_of_xRead {s : State} (hp : s.phase = .xRead) :
    exec .extract s = extractRead s := by
  simp only [exec, execExtract, hp]

theorem phaseOk_of_xRead {s : State} (hi : s.Inv) (hp : s.phase = .xRead) :
    s.cells ≤ s.cfg.pixCells ∧ s.pos ≤ s.cells ∧ s.gc = s.pos % 8 ∧ s.n = s.pos / 8 ∧
      s.g.toNat < 2 ^ s.gc := by
  obtain ⟨-, -, -, -, hok⟩ := hi
  rwa [State.phaseOk, hp] at hok

/-- `MOUT` has a byte for every group of the largest buffer (00_scope R8). -/
theorem pixCells_div_le_moutBytes_of_ok {c : Config} (h : c.ok = true) :
    c.pixCells / 8 ≤ c.moutBytes := by
  simp only [Config.ok, Bool.and_eq_true, decide_eq_true_eq] at h
  obtain ⟨-, hmout⟩ := h
  exact hmout

section xRead

variable {s : State} (hi : s.Inv) (hp : s.phase = .xRead) (hne : s.pos ≠ s.cells)
include hi hp hne

/-- In the read pass the cell of the next position exists (43_extract R137). -/
theorem addr_lt_pixCells_of_xRead : s.addr s.pos < s.cfg.pixCells := by
  obtain ⟨hpix, hpos, -⟩ := phaseOk_of_xRead hi hp
  exact Nat.lt_of_lt_of_le (addr_lt_cells (Nat.lt_of_le_of_ne hpos hne)) hpix

/-- When the eighth bit of a group is read, the group lies whole in the buffer, so `MOUT` has a byte for
it (43_extract R140). -/
theorem n_lt_moutBytes_of_xRead (hg : ¬ s.gc < 7) : s.n < s.cfg.moutBytes := by
  obtain ⟨hpix, hpos, hgc, hn, -⟩ := phaseOk_of_xRead hi hp
  obtain ⟨hok, -⟩ := hi
  have hmout := pixCells_div_le_moutBytes_of_ok hok
  omega

end xRead

end Sys2Proof.Machine

namespace Sys2Proof.Proofs.Extract

open Sys2Proof Sys2Proof.Machine

/-- Settles O12: the invariant puts the cell's address inside `PIX` and `N` inside `MOUT`, so that each
branch is its case of `extractRead`. -/
theorem extractReadStep : Obligations.ExtractReadStep := by
  intro s hi hp
  rw [exec_extract_of_xRead hp, ← pushBit_lsbAt]
  refine ⟨extractRead_exhausted, fun hne hg => ?bit, fun hne hg ht => ?terminate,
    fun hne hg ht => ?emit⟩
  case bit => exact extractRead_bit hne (addr_lt_pixCells_of_xRead hi hp hne) hg
  case terminate => exact extractRead_terminate hne (addr_lt_pixCells_of_xRead hi hp hne) hg ht
  case emit =>
    exact ⟨s.afterEmit,
      extractRead_emit hne (addr_lt_pixCells_of_xRead hi hp hne) hg ht
        (n_lt_moutBytes_of_xRead hi hp hne hg),
      afterEmit_byteAt_same s, fun _ => afterEmit_byteAt_ne s, rfl⟩

/-- Settles O18: one bit shifted in doubles the group and adds the bit, below the width; and the eight
bits of a byte are all of it. -/
theorem groupBitsRebuildByte : Obligations.GroupBitsRebuildByte := by
  refine ⟨fun g b => ⟨rfl, toNat_pushBit_of_lt b⟩, fun b0 b1 b2 b3 b4 b5 b6 b7 => ?value,
    fun v => foldl_pushBit_bitFromTop v (Nat.le_refl 8)⟩
  case value =>
    have h0 := b0.toNat_le
    have h1 := b1.toNat_le
    have h2 := b2.toNat_le
    have h3 := b3.toNat_le
    have h4 := b4.toNat_le
    have h5 := b5.toNat_le
    have h6 := b6.toNat_le
    have h7 := b7.toNat_le
    simp only [List.foldl_cons, List.foldl_nil, toNat_pushBit]
    omega

end Sys2Proof.Proofs.Extract
end

section
/-! The issue of a command whose operands are in range (44_command R155 to R157), and the `STATUS` word
of a running command (10_state R23). -/

namespace Sys2Proof.Machine

theorem bufferFits_iff {s : State} : s.bufferFits = true ↔ s.cells ≤ s.cfg.pixCells := decide_eq_true_iff

theorem messageFits_iff {s : State} : s.messageFits = true ↔ s.msgLen ≤ s.cfg.minBytes :=
  decide_eq_true_iff

/-- 44_command R155, R156: with both operand tests passed, `EMBED` is dispatched. -/
theorem embedIssue_of_fits {s : State} (hpix : s.cells ≤ s.cfg.pixCells)
    (hmin : s.msgLen ≤ s.cfg.minBytes) : embedIssue s = { beginIssue s with phase := .eCheck } := by
  rw [embedIssue, bufferFits_iff.mpr hpix, messageFits_iff.mpr hmin]
  rfl

/-- 44_command R155, R157: with the buffer test passed, `EXTRACT` is dispatched, whatever `MLEN` is. -/
theorem extractIssue_of_fits {s : State} (hpix : s.cells ≤ s.cfg.pixCells) :
    extractIssue s =
      { beginIssue s with pos := 0, g := 0x00, gc := 0, n := 0, phase := .xRead } := by
  rw [extractIssue, bufferFits_iff.mpr hpix]
  rfl

theorem exec_embed_of_ready {s : State} (hp : s.phase = .ready) :
    exec .embed s = .next (embedIssue s) := by
  simp only [exec, execEmbed, hp]

theorem exec_extract_of_ready {s : State} (hp : s.phase = .ready) :
    exec .extract s = .next (extractIssue s) := by
  simp only [exec, execExtract, hp]

/-- 10_state R23: with `DONE` and `ERR` clear, `BUSY` is the only bit of `STATUS` that is set. -/
theorem statusWord_of_busy {s : State} (hb : s.phase.busy = true) (hd : s.done = false)
    (he : s.err = .ok) : s.statusWord = 0x00000001#32 := by
  rw [State.statusWord, hb, hd, he]
  rfl

end Sys2Proof.Machine

namespace Sys2Proof.Proofs.Command

open Sys2Proof Sys2Proof.Machine

/-- Settles O6: both operand tests pass, so the issue is the dispatch, into a BUSY phase. -/
theorem embedIssueDispatches : Obligations.EmbedIssueDispatches := by
  intro s hp hpix hmin
  refine ⟨?next, statusWord_of_busy rfl rfl rfl⟩
  case next =>
    rw [exec_embed_of_ready hp, embedIssue_of_fits hpix hmin, beginIssue]

/-- Settles O7: the one operand test of `EXTRACT` passes, so the issue is the dispatch, into a BUSY
phase. -/
theorem extractIssueDispatches : Obligations.ExtractIssueDispatches := by
  intro s hp hpix
  refine ⟨?next, statusWord_of_busy rfl rfl rfl⟩
  case next =>
    rw [exec_extract_of_ready hp, extractIssue_of_fits hpix, beginIssue]

end Sys2Proof.Proofs.Command
end

section
/-! The issue of a command whose operands exceed the memories (44_command R155, 60_exceptions R177). -/

namespace Sys2Proof.Machine

theorem bufferFits_eq_false_iff {s : State} : s.bufferFits = false ↔ s.cells > s.cfg.pixCells := by
  rw [← Bool.not_eq_true, bufferFits_iff, Nat.not_le]

theorem messageFits_eq_false_iff {s : State} : s.messageFits = false ↔ s.msgLen > s.cfg.minBytes := by
  rw [← Bool.not_eq_true, messageFits_iff, Nat.not_le]

/-- 44_command R155, first operand test of `EMBED`. -/
theorem embedIssue_of_buffer_exceeds {s : State} (hpix : s.cells > s.cfg.pixCells) :
    embedIssue s = raiseError .operandRange (beginIssue s) := by
  rw [embedIssue, bufferFits_eq_false_iff.mpr hpix]
  rfl

/-- 44_command R155, second operand test of `EMBED`: where the first test fails too, it raises the same
error. -/
theorem embedIssue_of_message_exceeds {s : State} (hmin : s.msgLen > s.cfg.minBytes) :
    embedIssue s = raiseError .operandRange (beginIssue s) := by
  rw [embedIssue, messageFits_eq_false_iff.mpr hmin]
  exact ite_self _

/-- 44_command R155, the one operand test of `EXTRACT`. -/
theorem extractIssue_of_buffer_exceeds {s : State} (hpix : s.cells > s.cfg.pixCells) :
    extractIssue s = raiseError .operandRange (beginIssue s) := by
  rw [extractIssue, bufferFits_eq_false_iff.mpr hpix]
  rfl

end Sys2Proof.Machine

namespace Sys2Proof.Proofs.Exceptions

open Sys2Proof Sys2Proof.Machine

/-- Settles O5: a failed operand test raises `OperandRange` in place of the dispatch, and a raise on a
READY block changes `DONE` and `ERR` only. -/
theorem operandRangeRaisedAtIssue : Obligations.OperandRangeRaisedAtIssue := by
  intro s hp
  rw [exec_embed_of_ready hp, exec_extract_of_ready hp, ← raiseError_beginIssue_of_ready _ hp]
  refine ⟨fun hexceeds => ?embed, fun hpix => congrArg _ (extractIssue_of_buffer_exceeds hpix)⟩
  case embed =>
    obtain hpix | hmin := hexceeds
    · exact congrArg _ (embedIssue_of_buffer_exceeds hpix)
    · exact congrArg _ (embedIssue_of_message_exceeds hmin)

end Sys2Proof.Proofs.Exceptions
end

section
/-! Reset in every phase (70_reset_and_hazards R195), and the `STATUS` word it leaves (10_state R23). -/

namespace Sys2Proof.Machine

/-- While BUSY the host's next action says which step is taken (44_command R162). -/
theorem step_of_busy {s : State} {x : HostAction} {rest : List HostAction}
    (hb : s.phase.busy = true) (hh : s.host = x :: rest) :
    step s = hostBusy x { s with host := rest } := by
  simp [step, systemStep, hh, hb]

/-- 70_reset_and_hazards R195: READY or BUSY, a reset is the same transition. -/
theorem step_of_reset {s : State} {rest : List HostAction} (hh : s.host = .reset :: rest) :
    step s = .next (resetBlock { s with host := rest }) := by
  by_cases hb : s.phase.busy = true
  case pos => exact step_of_busy hb hh
  case neg => exact step_of_ready (not_busy_iff.mp (Bool.eq_false_iff.mpr hb)) hh

/-- 10_state R23: with the block READY and `DONE` and `ERR` clear, no bit of `STATUS` is set. -/
theorem statusWord_of_ready {s : State} (hp : s.phase = .ready) (hd : s.done = false)
    (he : s.err = .ok) : s.statusWord = 0x00000000#32 := by
  rw [State.statusWord, hp, hd, he]
  rfl

end Sys2Proof.Machine

namespace Sys2Proof.Proofs.Reset

open Sys2Proof Sys2Proof.Machine

/-- Settles O30: the step is `resetBlock` in every phase; it leaves `STATUS` clear and the engine READY,
where it has no step. -/
theorem resetClearsRegisters : Obligations.ResetClearsRegisters := by
  intro s rest hh
  exact ⟨_, step_of_reset hh, rfl,
    statusWord_of_ready (resetBlock_phase _) (resetBlock_done _) (resetBlock_err _),
    engineStep_ready (resetBlock_phase _)⟩

end Sys2Proof.Proofs.Reset
end

section
/-! The invariant of the block (10_state R42) through the steps of the two commands, one lemma per state
that a step rule can leave. -/

namespace Sys2Proof.Machine

theorem pixCells_lt_of_ok {c : Config} (h : c.ok = true) : c.pixCells < 2 ^ 35 := by
  simp only [Config.ok, Bool.and_eq_true, decide_eq_true_eq] at h
  obtain ⟨⟨hpix, -⟩, -⟩ := h
  exact hpix

theorem msgLen_lt (s : State) : s.msgLen < 2 ^ 32 := s.mlen.isLt

/-- A READY block has no more to meet than the sizes, the memories, the widths, and an error shown only
with `DONE`. -/
theorem inv_of_ready {s : State} (hp : s.phase = .ready) (hok : s.cfg.ok = true) (hmem : s.memOk)
    (hw : s.widthsOk) (he : s.err ≠ .ok → s.done = true) : s.Inv := by
  refine ⟨hok, hmem, hw, ⟨fun hb => ?_, he⟩, ?_⟩
  · rw [not_busy_iff.mpr hp] at hb
    cases hb
  · rw [State.phaseOk, hp]
    trivial

/-- The host's own fields are no part of the invariant. -/
theorem withHost_inv {s : State} (hi : s.Inv) (hs : List HostAction) (o : List HostSeen) (k : Nat) :
    (s.withHost hs o k).Inv := hi

theorem note_inv {s : State} (hi : s.Inv) (x : PortAccess) : (s.note x).Inv := hi

theorem raiseError_inv {s : State} (hi : s.Inv) (e : ErrorKind) : (raiseError e s).Inv := by
  obtain ⟨hok, hmem, hw, -, -⟩ := hi
  exact inv_of_ready rfl hok hmem hw fun _ => rfl

theorem beginIssue_inv {s : State} (hi : s.Inv) (hp : s.phase = .ready) : (beginIssue s).Inv := by
  obtain ⟨hok, hmem, hw, -, -⟩ := hi
  exact inv_of_ready hp hok hmem hw fun he => absurd rfl he

theorem resetBlock_inv {s : State} (hi : s.Inv) : (resetBlock s).Inv := by
  obtain ⟨hok, hmem, -, -, -⟩ := hi
  exact inv_of_ready rfl hok hmem (by simp [State.widthsOk]) fun he => absurd rfl he

theorem phaseOk_of_eCheck {s : State} (hi : s.Inv) (hp : s.phase = .eCheck) :
    s.cells ≤ s.cfg.pixCells ∧ s.msgLen ≤ s.cfg.minBytes := by
  obtain ⟨-, -, -, -, hok⟩ := hi
  rwa [State.phaseOk, hp] at hok

section embed

variable {s : State} (hi : s.Inv)
include hi

theorem embedIssue_inv (hp : s.phase = .ready) : (embedIssue s).Inv := by
  by_cases hpix : s.cells ≤ s.cfg.pixCells
  · by_cases hmin : s.msgLen ≤ s.cfg.minBytes
    · rw [embedIssue_of_fits hpix hmin]
      obtain ⟨hok, hmem, hw, -, -⟩ := hi
      exact ⟨hok, hmem, hw, ⟨fun _ => rfl, fun he => absurd rfl he⟩, hpix, hmin⟩
    · rw [embedIssue_of_message_exceeds (Nat.not_le.mp hmin)]
      exact raiseError_inv (beginIssue_inv hi hp) _
  · rw [embedIssue_of_buffer_exceeds (Nat.not_le.mp hpix)]
    exact raiseError_inv (beginIssue_inv hi hp) _

theorem embedCheck_inv (hp : s.phase = .eCheck) : (embedCheck s).Inv := by
  by_cases h0 : s.msgLen = 0
  · rw [embedCheck_of_empty h0]
    exact raiseError_inv hi _
  · by_cases hc : 8 * s.msgLen + 8 ≤ s.cells
    · rw [embedCheck_of_fits h0 hc]
      obtain ⟨hpix, hmin⟩ := phaseOk_of_eCheck hi hp
      obtain ⟨hok, hmem, ⟨hpos, -, hrest⟩, ⟨hdone, herr⟩, -⟩ := hi
      refine ⟨hok, hmem, ⟨hpos, Nat.two_pow_pos 32, hrest⟩, ⟨fun _ => hdone (by rw [hp]; rfl), herr⟩,
        hpix, hmin, ⟨Nat.pos_of_ne_zero h0, hc⟩, Nat.zero_le _, fun i hlt => absurd hlt i.not_lt_zero⟩
    · rw [embedCheck_of_tooLong h0 (Nat.not_le.mp hc)]
      exact raiseError_inv hi _

/-- 42_embed R119, R120: the whole message is validated, and the write pass starts in step. -/
theorem scanEnd_inv (hp : s.phase = .eScan) (he : s.si = s.msgLen) :
    { s with pos := 0, sc := 0, phase := .eWrite }.Inv := by
  obtain ⟨hpix, hmin, hfit, -, hplain⟩ := phaseOk_of_eScan hi hp
  obtain ⟨hok, hmem, ⟨-, hsi, hn, -, hgc⟩, ⟨hdone, herr⟩, -⟩ := hi
  exact ⟨hok, hmem, ⟨Nat.two_pow_pos 36, hsi, hn, Nat.zero_le 8, hgc⟩,
    ⟨fun _ => hdone (by rw [hp]; rfl), herr⟩, hpix, hmin, hfit, Nat.zero_le _, he ▸ hplain, rfl,
    Nat.zero_le 7, fun h => absurd h (Nat.lt_irrefl 0)⟩

/-- 42_embed R119: one more byte is known to be below 128. -/
theorem scanByte_inv (hp : s.phase = .eScan) (hne : s.si ≠ s.msgLen)
    (hb : topBit (s.byteAt .min s.si) = false) :
    { s.note (.read .min s.si) with si := s.si + 1 }.Inv := by
  obtain ⟨hpix, hmin, hfit, hle, hplain⟩ := phaseOk_of_eScan hi hp
  obtain ⟨hok, hmem, ⟨hpos, -, hrest⟩, hst, -⟩ := hi
  have hlt : s.si < s.msgLen := Nat.lt_of_le_of_ne hle hne
  refine ⟨hok, hmem, ⟨hpos, Nat.lt_of_le_of_lt hlt (msgLen_lt s), hrest⟩, hst, ?_⟩
  rw [State.phaseOk]
  simp only [note_phase, hp]
  refine ⟨hpix, hmin, hfit, hlt, fun i hlt' => ?_⟩
  obtain hlt' | rfl := Nat.lt_succ_iff_lt_or_eq.mp hlt'
  · exact hplain i hlt'
  · exact hb

theorem touched_memOk {a : Nat} (v : Byte) (ha : a < s.cfg.pixCells) : (s.touched a v).memOk := by
  obtain ⟨-, hmem, -⟩ := hi
  exact putByte_memOk (sp := .pix) v ha hmem

/-- 42_embed R121: the serializer stays in step with the position. -/
theorem afterData_inv (hp : s.phase = .eWrite) (hlt : s.pos < s.bitLen) : s.afterData.Inv := by
  obtain ⟨hpix, hmin, hfit, -, hplain, hser⟩ := phaseOk_of_eWrite hi hp
  have hmem := touched_memOk hi (withLsb (s.byteAt .pix (s.addr s.pos)) (topBit (s.srAt s.pos)))
    (addr_lt_pixCells_of_eWrite hi hp hlt.le)
  have hser' := serialized_serializerOk hser
  obtain ⟨hok, -, ⟨-, hsi, hn, -, hgc⟩, hst, -⟩ := hi
  obtain ⟨-, hsc, -⟩ := hser'
  have hpos : s.pos + 1 < 2 ^ 36 := by
    have := msgLen_lt s
    rw [State.bitLen] at hlt
    omega
  refine ⟨hok, hmem, ⟨hpos, hsi, hn, Nat.le_succ_of_le hsc, hgc⟩, hst, ?_⟩
  rw [State.phaseOk]
  simp only [State.afterData, State.touched, State.serialized, hp]
  exact ⟨hpix, hmin, hfit, hlt, hplain, serialized_serializerOk hser⟩

theorem afterTerminator_inv (hp : s.phase = .eWrite) : s.afterTerminator.Inv := by
  have hmem := touched_memOk hi (forceLsb (s.byteAt .pix (s.addr s.bitLen)))
    (addr_lt_pixCells_of_eWrite hi hp le_rfl)
  obtain ⟨hok, -, ⟨-, hw⟩, -, -⟩ := hi
  have hpos : s.bitLen + 1 < 2 ^ 36 := by
    have := msgLen_lt s
    rw [State.bitLen]
    omega
  exact inv_of_ready rfl hok hmem ⟨hpos, hw⟩ fun he => absurd rfl he

end embed

theorem execEmbed_inv {s t : State} (hi : s.Inv) (h : execEmbed s = .next t) : t.Inv := by
  obtain ⟨hp, rfl⟩ | ⟨hp, rfl⟩ | ⟨hp, h⟩ | ⟨hp, h⟩ | ⟨hp, rfl⟩ := execEmbed_cases h
  · exact embedIssue_inv hi hp
  · exact embedCheck_inv hi hp
  · obtain ⟨he, rfl⟩ | ⟨-, -, -, rfl⟩ | ⟨hne, -, hb, rfl⟩ := embedScan_cases h
    · exact scanEnd_inv hi hp he
    · exact raiseError_inv (note_inv hi _) _
    · exact scanByte_inv hi hp hne hb
  · obtain ⟨hlt, -, -, rfl⟩ | ⟨-, -, rfl⟩ := embedWrite_cases h
    · exact afterData_inv hi hp hlt
    · exact afterTerminator_inv hi hp
  · exact hi

section extract

variable {s : State} (hi : s.Inv)
include hi

theorem extractIssue_inv (hp : s.phase = .ready) : (extractIssue s).Inv := by
  by_cases hpix : s.cells ≤ s.cfg.pixCells
  · rw [extractIssue_of_fits hpix]
    obtain ⟨hok, hmem, ⟨-, hsi, -, hsc, -⟩, -, -⟩ := hi
    exact ⟨hok, hmem, ⟨Nat.two_pow_pos 36, hsi, Nat.two_pow_pos 32, hsc, Nat.zero_le 7⟩,
      ⟨fun _ => rfl, fun he => absurd rfl he⟩, hpix, Nat.zero_le _, rfl, (Nat.zero_div 8).symm,
      Nat.one_pos⟩
  · rw [extractIssue_of_buffer_exceeds (Nat.not_le.mp hpix)]
    exact raiseError_inv (beginIssue_inv hi hp) _

/-- In the read pass `POS` and `N` stay far below the widths the spec gives. -/
theorem cells_lt_of_xRead (hp : s.phase = .xRead) : s.cells < 2 ^ 35 := by
  obtain ⟨hpix, -⟩ := phaseOk_of_xRead hi hp
  obtain ⟨hok, -⟩ := hi
  exact Nat.lt_of_le_of_lt hpix (pixCells_lt_of_ok hok)

/-- 43_extract R138: a group in progress of `GC` bits is below `2 ^ GC`. -/
theorem afterBit_inv (hp : s.phase = .xRead) (hne : s.pos ≠ s.cells) (hg : s.gc < 7) :
    s.afterBit.Inv := by
  obtain ⟨hpix, hpos, hgc, hn, hgval⟩ := phaseOk_of_xRead hi hp
  have hcells := cells_lt_of_xRead hi hp
  obtain ⟨hok, hmem, ⟨-, hsi, hnw, hsc, -⟩, hst, -⟩ := hi
  refine ⟨hok, hmem, ⟨?_, hsi, hnw, hsc, hg⟩, hst, ?_⟩
  · show s.pos + 1 < 2 ^ 36
    omega
  · have hval : (pushBit s.g (s.lsbAt s.pos)).toNat < 2 ^ (s.gc + 1) := by
      have hpow : 2 ^ s.gc ≤ 2 ^ 6 := Nat.pow_le_pow_right (by decide) (by omega)
      have hbit := (s.lsbAt s.pos).toNat_le
      rw [toNat_pushBit_of_lt _ (by omega)]
      omega
    rw [State.phaseOk]
    simp only [State.afterBit, note_phase, hp]
    refine ⟨hpix, Nat.lt_of_le_of_ne hpos hne, ?_, ?_, hval⟩
    · show s.gc + 1 = (s.pos + 1) % 8
      omega
    · show s.n = (s.pos + 1) / 8
      omega

theorem afterExhausted_inv : s.afterExhausted.Inv := raiseError_inv (s := { s with olen := 0 }) hi _

theorem afterTerminate_inv (hp : s.phase = .xRead) : s.afterTerminate.Inv := by
  obtain ⟨-, hpos, -⟩ := phaseOk_of_xRead hi hp
  have hcells := cells_lt_of_xRead hi hp
  obtain ⟨hok, hmem, ⟨-, hw⟩, -, -⟩ := hi
  refine inv_of_ready rfl hok hmem ⟨?_, hw⟩ fun he => absurd rfl he
  show s.pos + 1 < 2 ^ 36
  omega

/-- 43_extract R140: the next group starts empty, at a position divisible by 8. -/
theorem afterEmit_inv (hp : s.phase = .xRead) (hne : s.pos ≠ s.cells) (hg : ¬ s.gc < 7) :
    s.afterEmit.Inv := by
  have hmout := n_lt_moutBytes_of_xRead hi hp hne hg
  obtain ⟨hpix, hpos, hgc, hn, -⟩ := phaseOk_of_xRead hi hp
  have hcells := cells_lt_of_xRead hi hp
  obtain ⟨hok, hmem, ⟨-, hsi, -, hsc, -⟩, hst, -⟩ := hi
  refine ⟨hok, putByte_memOk (sp := .mout) _ hmout hmem, ⟨?_, hsi, ?_, hsc, Nat.zero_le 7⟩, hst, ?_⟩
  · show s.pos + 1 < 2 ^ 36
    omega
  · show s.n + 1 < 2 ^ 32
    omega
  · rw [State.phaseOk]
    simp only [State.afterEmit, hp]
    refine ⟨hpix, Nat.lt_of_le_of_ne hpos hne, ?_, ?_, Nat.one_pos⟩
    · show 0 = (s.pos + 1) % 8
      omega
    · show s.n + 1 = (s.pos + 1) / 8
      omega

end extract

theorem execExtract_inv {s t : State} (hi : s.Inv) (h : execExtract s = .next t) : t.Inv := by
  obtain ⟨hp, rfl⟩ | ⟨-, rfl⟩ | ⟨hp, h⟩ := execExtract_cases h
  · exact extractIssue_inv hi hp
  · exact hi
  · obtain ⟨-, rfl⟩ | ⟨hne, -, hg, rfl⟩ | ⟨-, -, -, -, rfl⟩ | ⟨hne, -, hg, -, -, rfl⟩ :=
      extractRead_cases h
    · exact afterExhausted_inv hi
    · exact afterBit_inv hi hp hne hg
    · exact afterTerminate_inv hi hp
    · exact afterEmit_inv hi hp hne hg

theorem exec_inv {i : Instr} {s t : State} (hi : s.Inv) (h : exec i s = .next t) : t.Inv := by
  cases i with
  | embed => exact execEmbed_inv hi h
  | extract => exact execExtract_inv hi h

end Sys2Proof.Machine
end

section
/-! The invariant through the steps of the system: engine steps and host actions (44_command R158, R161,
R162). -/

namespace Sys2Proof.Machine

/-- The engine's step is a step of the running command, and none while READY. -/
theorem engineStep_cases {s t : State} (h : engineStep s = .next t) :
    (s.phase = .ready ∧ t = s) ∨ ∃ i, s.phase.command = some i ∧ exec i s = .next t := by
  unfold engineStep at h
  cases hp : s.phase.command with
  | none =>
    rw [hp] at h
    cases h
    refine .inl ⟨?_, rfl⟩
    cases hq : s.phase <;> simp [hq, Phase.command] at hp ⊢
  | some i =>
    rw [hp] at h
    exact .inr ⟨i, rfl, h⟩

theorem engineStep_inv {s t : State} (hi : s.Inv) (h : engineStep s = .next t) : t.Inv := by
  obtain ⟨-, rfl⟩ | ⟨i, -, h⟩ := engineStep_cases h
  · exact hi
  · exact exec_inv hi h

theorem issueWord_inv {s t : State} {w : Word} (hi : s.Inv) (hp : s.phase = .ready)
    (h : issueWord w s = .next t) : t.Inv := by
  obtain ⟨i, -, h⟩ | ⟨-, rfl⟩ := issueWord_cases h
  · exact exec_inv hi h
  · exact raiseError_inv (beginIssue_inv hi hp) _

/-- While READY no operand register is bound by the invariant. -/
theorem writeReg_inv {s : State} (hi : s.Inv) (hp : s.phase = .ready) (off : Nat) (v : Word) :
    (writeReg s off v).Inv := by
  obtain ⟨hok, hmem, hw, ⟨-, he⟩, -⟩ := id hi
  obtain h | h | h | h | h := writeReg_cases s off v <;> rw [h]
  · exact hi
  all_goals exact inv_of_ready hp hok hmem hw he

theorem putByte_inv {s : State} {sp : Space} {a : Nat} (hi : s.Inv) (hp : s.phase = .ready) (v : Byte)
    (ha : a < s.cfg.size sp) : (s.putByte sp a v).Inv := by
  obtain ⟨hok, hmem, hw, ⟨-, he⟩, -⟩ := hi
  exact inv_of_ready (by simpa) (by simpa) (putByte_memOk v ha hmem) (by simpa [State.widthsOk] using hw)
    (by simpa)

theorem hostBusy_inv {s t : State} {x : HostAction} (hi : s.Inv) (h : hostBusy x s = .next t) :
    t.Inv := by
  obtain ⟨hs, o, k, rfl⟩ | rfl | ⟨hs, h⟩ := hostBusy_cases h
  · exact withHost_inv hi hs o k
  · exact resetBlock_inv hi
  · exact engineStep_inv (withHost_inv hi hs s.seen s.freeIdx) h

theorem hostReady_inv {s t : State} {x : HostAction} (hi : s.Inv) (hp : s.phase = .ready)
    (h : hostReady x s = .next t) : t.Inv := by
  obtain ⟨hs, o, k, rfl⟩ | rfl | ⟨w, h⟩ | ⟨off, v, rfl⟩ | ⟨sp, a, v, ha, rfl⟩ := hostReady_cases h
  · exact withHost_inv hi hs o k
  · exact resetBlock_inv hi
  · exact issueWord_inv hi hp h
  · exact writeReg_inv hi hp off v
  · exact putByte_inv hi hp v ha

end Sys2Proof.Machine

namespace Sys2Proof.Proofs.Invariant

open Sys2Proof Sys2Proof.Machine

/-- Settles O36: an engine step, a host action while BUSY and a host action while READY each keep the
invariant. -/
theorem stepKeepsInvariant : Obligations.StepKeepsInvariant := by
  intro s t hi h
  obtain ⟨-, h⟩ | ⟨x, rest, -, -, h⟩ | ⟨x, rest, -, hp, h⟩ := systemStep_cases h
  · exact engineStep_inv hi h
  · exact hostBusy_inv (withHost_inv hi rest s.seen s.freeIdx) h
  · exact hostReady_inv (withHost_inv hi rest s.seen s.freeIdx) hp h

end Sys2Proof.Proofs.Invariant
end

section
/-! The decoder against every word (30_encoding R74), and the laws of the three cell primitives
(41_traversal R107 to R110). -/

namespace Sys2Proof

/-- 30_encoding R72, R74: only the two rows of the opcode map decode to a command. -/
theorem encode_of_decode {w : Word} {i : Instr} (h : decode w = .legal i) : encode i = w := by
  by_cases h1 : w = 0x00000001#32
  · subst h1
    cases h
    rfl
  · by_cases h2 : w = 0x00000002#32
    · subst h2
      cases h
      rfl
    · rw [decode_of_ne h1 h2] at h
      cases h

end Sys2Proof

namespace Sys2Proof.Machine

/-- The mask of 41_traversal R108 keeps every bit but bit 0. -/
theorem getLsbD_highMask {i : Nat} (hi : i < 8) : (0xFE : Byte).getLsbD i = decide (i ≠ 0) := by
  revert i
  decide

theorem getLsbD_bitByte (b : Bool) (i : Nat) : (bitByte b).getLsbD i = (decide (i = 0) && b) := by
  cases b <;> cases i <;> simp [bitByte]

/-- 41_traversal R108: the written byte is the cell with its bit 0 shifted out and the new one in. -/
theorem withLsb_eq_shiftConcat (v : Byte) (b : Bool) : withLsb v b = (v >>> 1).shiftConcat b := by
  refine BitVec.eq_of_getLsbD_eq fun i hi => ?_
  rw [withLsb, BitVec.getLsbD_or, BitVec.getLsbD_and, getLsbD_highMask hi, getLsbD_bitByte,
    BitVec.getLsbD_shiftConcat]
  cases i with
  | zero => simp
  | succ i => simp [hi, Nat.add_comm 1 i]

/-- 41_traversal R109, R110 (d). -/
theorem forceLsb_eq_withLsb (v : Byte) : forceLsb v = withLsb v true := by
  refine BitVec.eq_of_getLsbD_eq fun i hi => ?_
  have hone : (0x01 : Byte) = bitByte true := rfl
  rw [forceLsb, withLsb, BitVec.getLsbD_or, BitVec.getLsbD_or, BitVec.getLsbD_and,
    getLsbD_highMask hi, hone, getLsbD_bitByte]
  cases i <;> simp

@[simp] theorem getLsbD_zero_withLsb (v : Byte) (b : Bool) : (withLsb v b).getLsbD 0 = b := by
  simp [withLsb_eq_shiftConcat]

@[simp] theorem lsbOf_withLsb (v : Byte) (b : Bool) : lsbOf (withLsb v b) = b := by
  rw [lsbOf_eq_getLsbD, getLsbD_zero_withLsb]

@[simp] theorem withLsb_ushiftRight_one (v : Byte) (b : Bool) : withLsb v b >>> 1 = v >>> 1 := by
  refine BitVec.eq_of_getLsbD_eq fun i hi => ?_
  rw [withLsb_eq_shiftConcat, BitVec.getLsbD_ushiftRight, BitVec.getLsbD_shiftConcat]
  by_cases h7 : 1 + i < 8
  · simp [h7]
  · simp [h7, BitVec.getLsbD_of_ge v (1 + i) (Nat.not_lt.mp h7)]

/-- Writing the same bit again changes nothing (42_embed R129 (i)). -/
@[simp] theorem withLsb_withLsb (v : Byte) (b : Bool) : withLsb (withLsb v b) b = withLsb v b := by
  rw [withLsb_eq_shiftConcat (withLsb v b), withLsb_ushiftRight_one, ← withLsb_eq_shiftConcat]

/-- Bits 7 to 1 of a cell stay (41_traversal R110 (a)). -/
@[simp] theorem withLsb_and_highMask (v : Byte) (b : Bool) : withLsb v b &&& 0xFE = v &&& 0xFE := by
  refine BitVec.eq_of_getLsbD_eq fun i hi => ?_
  rw [withLsb, BitVec.getLsbD_and, BitVec.getLsbD_or, BitVec.getLsbD_and,
    getLsbD_highMask hi, getLsbD_bitByte]
  cases i <;> simp

theorem toNat_withLsb (v : Byte) (b : Bool) : (withLsb v b).toNat = v.toNat / 2 * 2 + b.toNat := by
  have hv := v.isLt
  have hb := b.toNat_le
  rw [withLsb_eq_shiftConcat, BitVec.toNat_shiftConcat, BitVec.toNat_ushiftRight, Nat.shiftLeft_eq,
    Nat.shiftRight_eq_div_pow, Nat.pow_one, Nat.mod_eq_of_lt (by omega)]

theorem toNat_getLsbD_zero (v : Byte) : (v.getLsbD 0).toNat = v.toNat % 2 := by
  rw [← BitVec.testBit_toNat, Nat.toNat_testBit, Nat.pow_zero, Nat.div_one]

/-- 41_traversal R110 (c): a cell moves by at most one. -/
theorem withLsb_moves_by_one (v : Byte) (b : Bool) :
    withLsb v b = v ∨
      v.getLsbD 0 = false ∧ b = true ∧ (withLsb v b).toNat = v.toNat + 1 ∨
      v.getLsbD 0 = true ∧ b = false ∧ (withLsb v b).toNat + 1 = v.toNat := by
  have hw := toNat_withLsb v b
  have h0 := toNat_getLsbD_zero v
  cases hv : v.getLsbD 0 <;> cases b <;> rw [hv] at h0 <;>
    simp only [Bool.toNat_false, Bool.toNat_true] at hw h0
  · exact .inl (BitVec.eq_of_toNat_eq (by omega))
  · exact .inr (.inl ⟨rfl, rfl, by omega⟩)
  · exact .inr (.inr ⟨rfl, rfl, by omega⟩)
  · exact .inl (BitVec.eq_of_toNat_eq (by omega))

end Sys2Proof.Machine

namespace Sys2Proof.Proofs.Encoding

open Sys2Proof Sys2Proof.Machine

/-- Settles O2: the two words are the encodings of their commands, and every other word is illegal. -/
theorem decoderComparesWholeWord : Obligations.DecoderComparesWholeWord := by
  intro w
  refine ⟨?_, ?_, decode_of_ne⟩
  · rintro rfl
    exact decode_encode .embed
  · rintro rfl
    exact decode_encode .extract

/-- Settles O3: the two directions of the opcode map. -/
theorem decodeEncodeAgree : Obligations.DecodeEncodeAgree :=
  ⟨fun i _ => decode_encode i, fun _ _ => encode_of_decode⟩

end Sys2Proof.Proofs.Encoding

namespace Sys2Proof.Proofs.Traversal

open Sys2Proof Sys2Proof.Machine

/-- Settles O17: forcing is writing 1, and writing keeps the high bits and sets bit 0. -/
theorem cellUpdateLaws : Obligations.CellUpdateLaws := by
  intro v b
  rw [forceLsb_eq_withLsb]
  refine ⟨⟨withLsb_ushiftRight_one v b, getLsbD_zero_withLsb v b⟩,
    ⟨withLsb_ushiftRight_one v true, getLsbD_zero_withLsb v true⟩, withLsb_moves_by_one v b,
    ⟨lsbOf_withLsb v b, lsbOf_withLsb v true, rfl⟩, ?_⟩
  rw [BitVec.toNat_and]
  exact (Nat.and_one_is_mod v.toNat).symm

end Sys2Proof.Proofs.Traversal
end

section
/-! The order of the Traversal (41_traversal R101 to R106): quotient and remainder determine each other,
and how they move to the next position. -/

namespace Sys2Proof.Machine

/-- The next position: inside a row of length `m`, or at the start of the next one. -/
theorem succ_div_mod {m : Nat} (hm : 0 < m) (p : Nat) :
    (p % m + 1 < m ∧ (p + 1) / m = p / m ∧ (p + 1) % m = p % m + 1) ∨
    (p % m + 1 = m ∧ (p + 1) / m = p / m + 1 ∧ (p + 1) % m = 0) := by
  have hp := Nat.mod_add_div p m
  have hlt := Nat.mod_lt p hm
  by_cases h : p % m + 1 < m
  · exact .inl ⟨h, (Nat.div_mod_unique hm).mpr ⟨by omega, h⟩⟩
  · exact .inr ⟨by omega, (Nat.div_mod_unique hm).mpr ⟨by rw [Nat.mul_add]; omega, hm⟩⟩

/-- `cell(p)` by rows: `p / W` is the row counted through all channels. -/
theorem cellAt_eq (h w p : Nat) : cellAt h w p = ⟨p / w / h, p / w % h, p % w⟩ := by
  rw [cellAt, Nat.mod_mul_left_div_self, Nat.div_div_eq_div_mul, Nat.mul_comm w h]

theorem positionOf_cellAt (h w p : Nat) : positionOf h w (cellAt h w p) = p := by
  have hrow := Nat.div_add_mod' (p / w) h
  have hp := Nat.div_add_mod' p w
  rw [cellAt_eq, positionOf]
  calc p / w / h * (h * w) + p / w % h * w + p % w
      = (p / w / h * h + p / w % h) * w + p % w := by rw [Nat.add_mul, Nat.mul_assoc]
    _ = p := by rw [hrow, hp]

/-- In range, dimensions are nonzero (41_traversal R101). -/
theorem dims_pos_of_lt {h w c p : Nat} (hp : p < h * w * c) : 0 < h ∧ 0 < w ∧ 0 < c := by
  have hpos := Nat.zero_lt_of_lt hp
  have hhw := Nat.pos_of_mul_pos_right hpos
  exact ⟨Nat.pos_of_mul_pos_right hhw, Nat.pos_of_mul_pos_left hhw, Nat.pos_of_mul_pos_left hpos⟩

theorem positionOf_lt {h w c : Nat} {t : Triple} (hch : t.ch < c) (hrow : t.row < h) (hcol : t.col < w) :
    positionOf h w t < h * w * c := by
  calc t.ch * (h * w) + t.row * w + t.col
      < t.ch * (h * w) + (t.row + 1) * w := by rw [Nat.succ_mul]; omega
    _ ≤ t.ch * (h * w) + h * w := Nat.add_le_add_left (Nat.mul_le_mul_right w hrow) _
    _ = (t.ch + 1) * (h * w) := (Nat.succ_mul _ _).symm
    _ ≤ c * (h * w) := Nat.mul_le_mul_right _ hch
    _ = h * w * c := Nat.mul_comm _ _

theorem cellAt_positionOf {h w : Nat} {t : Triple} (hrow : t.row < h) (hcol : t.col < w) :
    cellAt h w (positionOf h w t) = t := by
  have hw : 0 < w := Nat.zero_lt_of_lt hcol
  have hh : 0 < h := Nat.zero_lt_of_lt hrow
  have hpos : positionOf h w t = t.col + w * (t.row + h * t.ch) := by
    rw [positionOf]
    ring
  rw [cellAt_eq, hpos, Nat.add_mul_div_left _ _ hw, Nat.add_mul_mod_self_left, Nat.div_eq_of_lt hcol,
    Nat.mod_eq_of_lt hcol, Nat.zero_add, Nat.add_mul_div_left _ _ hh, Nat.add_mul_mod_self_left,
    Nat.div_eq_of_lt hrow, Nat.mod_eq_of_lt hrow, Nat.zero_add]

/-- Exchanging the two digits of a mixed-radix number and back gives it again: `addr` exchanges the
channel with the place in the channel's pass (41_traversal R103). -/
theorem exchange_exchange {n c p : Nat} (hp : p < n * c) :
    (p % n * c + p / n) % c * n + (p % n * c + p / n) / c = p := by
  have hch : p / n < c := Nat.div_lt_of_lt_mul hp
  have hc : 0 < c := Nat.zero_lt_of_lt hch
  rw [Nat.add_comm (p % n * c), Nat.add_mul_mod_self_right, Nat.mod_eq_of_lt hch,
    Nat.add_mul_div_right _ _ hc, Nat.div_eq_of_lt hch, Nat.zero_add, Nat.div_add_mod']

/-- 41_traversal R104: different positions have different addresses. -/
theorem addrAt_injective {h w c p q : Nat} (hp : p < h * w * c) (hq : q < h * w * c)
    (he : addrAt h w c p = addrAt h w c q) : p = q := by
  rw [addrAt_eq, addrAt_eq] at he
  rw [← exchange_exchange hp, he, exchange_exchange hq]

/-- 41_traversal R104: every offset of the buffer is the address of a position. -/
theorem exists_addrAt_eq {h w c a : Nat} (ha : a < h * w * c) : ∃ p, p < h * w * c ∧ addrAt h w c p = a := by
  have ha' : a < c * (h * w) := Nat.mul_comm (h * w) c ▸ ha
  have hc : 0 < c := Nat.pos_of_mul_pos_right (Nat.zero_lt_of_lt ha')
  refine ⟨a % c * (h * w) + a / c, ?_, by rw [addrAt_eq, exchange_exchange ha']⟩
  calc a % c * (h * w) + a / c
      < a % c * (h * w) + h * w := Nat.add_lt_add_left (Nat.div_lt_of_lt_mul ha') _
    _ = (a % c + 1) * (h * w) := (Nat.succ_mul _ _).symm
    _ ≤ c * (h * w) := Nat.mul_le_mul_right _ (Nat.mod_lt a hc)
    _ = h * w * c := Nat.mul_comm _ _

/-- 41_traversal R105: the advance goes to the next cell: along the row, to the next row, or to the next
channel. -/
theorem advance_cellAt {h w : Nat} (hh : 0 < h) (hw : 0 < w) (p : Nat) :
    (cellAt h w p).advance h w = cellAt h w (p + 1) := by
  rw [cellAt_eq, cellAt_eq, Triple.advance]
  obtain ⟨hlt, hdiv, hmod⟩ | ⟨heq, hdiv, hmod⟩ := succ_div_mod hw p
  · simp only [hlt, if_true, hdiv, hmod]
  · obtain ⟨hlt', hdiv', hmod'⟩ | ⟨heq', hdiv', hmod'⟩ := succ_div_mod hh (p / w)
    · simp only [heq, Nat.lt_irrefl, if_false, hlt', if_true, hdiv, hmod, hdiv', hmod']
    · simp only [heq, Nat.lt_irrefl, if_false, heq', hdiv, hmod, hdiv', hmod']

theorem cursorAt_eq_cellAt {h w : Nat} (hh : 0 < h) (hw : 0 < w) (p : Nat) :
    cursorAt h w p = cellAt h w p := by
  induction p with
  | zero => simp [cursorAt, cellAt]
  | succ p ih => rw [cursorAt, ih, advance_cellAt hh hw]

end Sys2Proof.Machine

namespace Sys2Proof.Proofs.Traversal

open Sys2Proof Sys2Proof.Machine

/-- Settles O20: a quotient and remainder each way. -/
theorem positionAndTripleCorrespond : Obligations.PositionAndTripleCorrespond := by
  refine ⟨fun h w c p hp => ?_, fun h w c t hch hrow hcol =>
    ⟨positionOf_lt hch hrow hcol, cellAt_positionOf hrow hcol⟩⟩
  obtain ⟨hh, hw, hc⟩ := dims_pos_of_lt hp
  refine ⟨rfl, hh, hw, hc, Nat.div_lt_of_lt_mul hp, ?_, Nat.mod_lt p hw, positionOf_cellAt h w p⟩
  rw [cellAt_eq]
  exact Nat.mod_lt _ hh

/-- Settles O21: `addr` has an inverse on the buffer. -/
theorem addressesArePermutation : Obligations.AddressesArePermutation :=
  fun _ _ _ => ⟨fun _ => addrAt_lt, fun _ _ => addrAt_injective, fun _ => exists_addrAt_eq⟩

/-- Settles O22: each advance is the next cell, and past the last one the channel is `C`. -/
theorem cursorFormAgrees : Obligations.CursorFormAgrees := by
  refine ⟨fun h w c p hp => ?_, fun h w c hh hw => ?_⟩
  · obtain ⟨hh, hw, -⟩ := dims_pos_of_lt hp
    exact cursorAt_eq_cellAt hh hw p
  · have hend : positionOf h w ⟨c, 0, 0⟩ = h * w * c := by
      simp [positionOf, Nat.mul_comm]
    rw [cursorAt_eq_cellAt hh hw, ← hend, cellAt_positionOf hh hw]

/-- Settles O23: inside a channel's pass only the remainder moves; at its end the remainder is `H·W - 1`
and the quotient moves. -/
theorem addressStridePattern : Obligations.AddressStridePattern := by
  intro h w c p hp
  obtain ⟨hh, hw, -⟩ := dims_pos_of_lt hp
  obtain ⟨-, hdiv, hmod⟩ | ⟨heq, hdiv, hmod⟩ := succ_div_mod (Nat.mul_pos hh hw) p
  · refine ⟨addrAt_eq h w c p, fun _ => ?_, fun h0 => absurd (hmod ▸ h0) (Nat.succ_ne_zero _)⟩
    rw [addrAt_eq, addrAt_eq, hdiv, hmod, Nat.succ_mul, Nat.add_right_comm]
  · refine ⟨addrAt_eq h w c p, fun hne => absurd hmod hne, fun _ => ⟨?_, ?_⟩⟩
    · have hlast : p % (h * w) = h * w - 1 := by omega
      rw [addrAt_eq, hlast, Nat.sub_mul, Nat.one_mul]
    · rw [addrAt_eq, hdiv, hmod, Nat.zero_mul, Nat.zero_add]

end Sys2Proof.Proofs.Traversal
end

section
/-! The register space through a host access (10_state R21 to R28, 20_memory R53), in both phases, and the
fields of `STATUS` (10_state R23). -/

namespace Sys2Proof.Machine

theorem code_toNat_le (e : ErrorKind) : e.code.toNat ≤ 6 := by
  cases e <;> decide

/-- 10_state R23: `STATUS` as a number; its fields are the digits. -/
theorem statusWord_toNat (s : State) :
    s.statusWord.toNat = s.err.code.toNat * 16 + s.done.toNat * 2 + s.phase.busy.toNat := by
  have hb := s.phase.busy.toNat_le
  have hd := s.done.toNat_le
  have hdone : BitVec.toNat (0#24 ++ s.err.code ++ 0#2 ++ BitVec.ofBool s.done) =
      s.err.code.toNat * 8 + s.done.toNat := by
    rw [BitVec.toNat_append, BitVec.toNat_append, BitVec.toNat_append,
      ← Nat.shiftLeft_add_eq_or_of_lt (by simp; omega)]
    simp [Nat.shiftLeft_eq]
    omega
  rw [State.statusWord, BitVec.toNat_append, hdone,
    ← Nat.shiftLeft_add_eq_or_of_lt (by simp; omega), BitVec.toNat_ofBool, Nat.shiftLeft_eq]
  omega

/-- A field of a word is a digit of its value. -/
theorem extractLsb'_eq_ofNat {w : Nat} {x : BitVec w} {i k n : Nat}
    (h : x.toNat / 2 ^ i % 2 ^ k = n % 2 ^ k) : x.extractLsb' i k = BitVec.ofNat k n := by
  apply BitVec.eq_of_toNat_eq
  rw [BitVec.extractLsb'_toNat, Nat.shiftRight_eq_div_pow, h, BitVec.toNat_ofNat]

theorem getLsbD_eq_of_toNat {w : Nat} {x : BitVec w} {i : Nat} {b : Bool}
    (h : x.toNat / 2 ^ i % 2 = b.toNat) : x.getLsbD i = b := by
  rw [← BitVec.testBit_toNat, Nat.testBit_eq_decide_div_mod_eq, h]
  cases b <;> rfl

theorem busy_iff {s : State} : s.phase.busy = true ↔ s.phase ≠ .ready := by
  rw [← Bool.not_eq_false, not_busy_iff]

/-- While BUSY, `DONE` and `ERR` are clear (10_state R42 (a), (c)). -/
theorem status_clear_of_busy {s : State} (hi : s.Inv) (hp : s.phase ≠ .ready) :
    s.done = false ∧ s.err = .ok := by
  obtain ⟨-, -, -, ⟨hdone, herr⟩, -⟩ := hi
  have hd := hdone (busy_of_ne hp)
  refine ⟨hd, Classical.byContradiction fun he => ?_⟩
  rw [herr he] at hd
  cases hd

theorem regAccessOk_of_aligned {off : Nat} (h : off % 4 = 0) : regAccessOk off 4 = true := by
  simp [regAccessOk, h]

theorem regAccessOk_eq_false {off bytes : Nat} (h : bytes ≠ 4 ∨ off % 4 ≠ 0) :
    regAccessOk off bytes = false := by
  obtain h | h := h <;> simp [regAccessOk, h]

/-- 10_state R21: no register stands at `0x1C` or above. -/
theorem ofOffset_eq_none {off : Nat} (h : 0x1C ≤ off) : RegName.ofOffset off = none := by
  unfold RegName.ofOffset
  iterate 7 rw [if_neg (by omega)]

theorem readReg_of_noRegister (s : State) {off : Nat} (h : 0x1C ≤ off) : readReg s off = (0, s) := by
  rw [readReg, ofOffset_eq_none h]

theorem writeReg_of_noRegister (s : State) {off : Nat} (v : Word) (h : 0x1C ≤ off) :
    writeReg s off v = s := by
  rw [writeReg, ofOffset_eq_none h]

theorem readReg_olen_of_ready {s : State} (hp : s.phase = .ready) : readReg s 0x18 = (s.olen, s) :=
  if_neg (by simp [hp, Phase.busy])

theorem readReg_olen_of_busy {s : State} (hp : s.phase ≠ .ready) :
    readReg s 0x18 = (Config.busyOlen s.freeIdx, { s with freeIdx := s.freeIdx + 1 }) :=
  if_pos (busy_of_ne hp)

theorem hostRegRead_of_aligned {s u : State} {off : Nat} {v : Word} (hal : off % 4 = 0)
    (hr : readReg s off = (v, u)) : hostRegRead s off 4 = .next (u.see (.reg off v)) := by
  rw [hostRegRead, if_pos (regAccessOk_of_aligned hal), hr]

/-- A host register read is the same transition READY or BUSY, but for what `readReg` gives. -/
theorem step_regRead {s : State} {off bytes : Nat} {rest : List HostAction}
    (hh : s.host = .regRead off bytes :: rest) :
    step s = hostRegRead { s with host := rest } off bytes := by
  by_cases hp : s.phase = .ready
  · exact step_of_ready hp hh
  · exact step_of_busy (busy_of_ne hp) hh

/-- A read of a whole register that uses no free value leaves the value with the host, and nothing else. -/
theorem step_regRead_of_aligned {s : State} {off : Nat} {v : Word} {rest : List HostAction}
    (hh : s.host = .regRead off 4 :: rest) (hal : off % 4 = 0)
    (hr : readReg { s with host := rest } off = (v, { s with host := rest })) :
    step s = .next { s with host := rest, seen := .reg off v :: s.seen } :=
  (step_regRead hh).trans (hostRegRead_of_aligned hal hr)

/-- A whole write to any offset but that of `CMD`, while READY. -/
theorem step_regWrite_of_ready {s : State} {off : Nat} {v : Word} {rest : List HostAction}
    (hp : s.phase = .ready) (hh : s.host = .regWrite off 4 v :: rest) (hal : off % 4 = 0)
    (hne : off ≠ 0x00) : step s = .next (writeReg { s with host := rest } off v) := by
  rw [step_of_ready hp hh, hostReady, hostRegWriteReady, if_pos (regAccessOk_of_aligned hal)]
  exact if_neg hne

/-- A write to a register while BUSY has no effect (44_command R162). -/
theorem step_regWrite_of_busy {s : State} {off : Nat} {v : Word} {rest : List HostAction}
    (hp : s.phase ≠ .ready) (hh : s.host = .regWrite off 4 v :: rest) (hal : off % 4 = 0) :
    step s = .next { s with host := rest } := by
  rw [step_of_busy (busy_of_ne hp) hh, hostBusy, hostRegWriteBusy,
    if_pos (regAccessOk_of_aligned hal)]

end Sys2Proof.Machine

namespace Sys2Proof.Proofs.Registers

open Sys2Proof Sys2Proof.Machine

/-- Settles O24: the fields are digits of `STATUS` as a number. -/
theorem statusWordFields : Obligations.StatusWordFields := by
  refine ⟨⟨rfl, rfl, rfl, rfl, rfl, rfl, rfl⟩, fun s => ?_⟩
  have hs := statusWord_toNat s
  have hc := code_toNat_le s.err
  have hd := s.done.toNat_le
  have hb := s.phase.busy.toNat_le
  have hcode : s.statusWord.extractLsb' 4 4 = s.err.code := by
    rw [extractLsb'_eq_ofNat (n := s.err.code.toNat) (by omega), BitVec.ofNat_toNat, BitVec.setWidth_eq]
  refine ⟨hcode ▸ hc, ?_, getLsbD_eq_of_toNat (by omega), extractLsb'_eq_ofNat (n := 0) (by omega), hcode,
    extractLsb'_eq_ofNat (n := 0) (by omega)⟩
  rw [getLsbD_eq_of_toNat (b := s.phase.busy) (by omega), busy_iff]

/-- Settles O25: every offset of the register map is aligned, and while READY each read gives the
register itself. -/
theorem readyRegisterReads : Obligations.ReadyRegisterReads := by
  intro s off v rest hp hh hv
  obtain ⟨rfl, rfl⟩ | ⟨rfl, rfl⟩ | ⟨rfl, rfl⟩ | ⟨rfl, rfl⟩ | ⟨rfl, rfl⟩ | ⟨rfl, rfl⟩ | ⟨rfl, rfl⟩ |
    ⟨hoff, hal, rfl⟩ := hv
  iterate 6 exact step_regRead_of_aligned hh rfl rfl
  · exact step_regRead_of_aligned hh rfl (readReg_olen_of_ready (s := { s with host := rest }) hp)
  · exact step_regRead_of_aligned hh hal (readReg_of_noRegister _ hoff)

/-- Settles O26: a whole write that does not go to `CMD` is `writeReg`. -/
theorem readyRegisterWrites : Obligations.ReadyRegisterWrites := by
  intro s off v rest hp hh
  refine ⟨?_, ?_, ?_, ?_, ?ignored⟩
  case ignored =>
    rintro (rfl | rfl | ⟨hoff, hal⟩)
    · exact step_regWrite_of_ready hp hh rfl (by decide)
    · exact step_regWrite_of_ready hp hh rfl (by decide)
    · rw [step_regWrite_of_ready hp hh hal (by omega), writeReg_of_noRegister _ _ hoff]
  all_goals
    rintro rfl
    exact step_regWrite_of_ready hp hh rfl (by decide)

/-- Settles O28: the shape is tested first, READY or BUSY. -/
theorem partialRegisterAccessRefused : Obligations.PartialRegisterAccessRefused := by
  intro s off bytes v rest hbad hh
  have hno : ¬ regAccessOk off bytes = true := by simp [regAccessOk_eq_false hbad]
  obtain hh | hh := hh
  · by_cases hp : s.phase = .ready
    · rw [step_of_ready hp hh]
      exact if_neg hno
    · rw [step_of_busy (busy_of_ne hp) hh]
      exact if_neg hno
  · rw [step_regRead hh]
    exact if_neg hno

/-- Settles O27: the invariant gives the `STATUS` word of a BUSY block; every other clause is one arm of
`hostBusy`. -/
theorem busyHostActions : Obligations.BusyHostActions := by
  intro s x rest hi hp hh
  have hb := busy_of_ne hp
  obtain ⟨hdone, herr⟩ := status_clear_of_busy hi hp
  refine ⟨?write, ?read, ?olen, ?reset, ?memory, ?wait, ?engine, ?result⟩
  case write =>
    rintro off v rfl hal
    exact step_regWrite_of_busy hp hh hal
  case read =>
    rintro off v rfl hv
    obtain ⟨rfl, rfl⟩ | ⟨rfl, rfl⟩ | ⟨rfl, rfl⟩ | ⟨rfl, rfl⟩ | ⟨rfl, rfl⟩ | ⟨rfl, rfl⟩ |
      ⟨hoff, hal, rfl⟩ := hv
    · exact step_regRead_of_aligned hh rfl rfl
    · rw [← statusWord_of_busy hb hdone herr]
      exact step_regRead_of_aligned hh rfl rfl
    iterate 4 exact step_regRead_of_aligned hh rfl rfl
    · exact step_regRead_of_aligned hh hal (readReg_of_noRegister _ hoff)
  case olen =>
    rintro rfl
    exact (step_regRead hh).trans
      (hostRegRead_of_aligned rfl (readReg_olen_of_busy (s := { s with host := rest }) hp))
  case reset =>
    rintro rfl
    exact step_of_reset hh
  case memory =>
    rintro sp a v (rfl | rfl)
    · exact step_of_busy hb hh
    · exact step_of_busy hb hh
  case wait =>
    rintro rfl
    rw [step_of_busy hb hh, hostBusy, ← hh]
  case engine =>
    rintro rfl
    exact step_of_busy hb hh
  case result =>
    rintro rfl
    exact step_of_busy hb hh

end Sys2Proof.Proofs.Registers
end

section
/-! The memories through a host access while READY (44_command R161), the state after power-on
(10_state R40), and what the host gives an idle or a running block to do (44_command R158). -/

namespace Sys2Proof.Machine

/-- A store replaces one of the three memories and nothing else. -/
theorem putByte_eq (s : State) (sp : Space) (a : Nat) (v : Byte) :
    s.putByte sp a v = { s with
      pixMem := (s.putByte sp a v).pixMem, minMem := (s.putByte sp a v).minMem
      moutMem := (s.putByte sp a v).moutMem } := by
  cases sp <;> rfl

/-- 20_memory R59: a store changes what one offset of one memory reads as. -/
theorem byteAt_putByte_other {sp q : Space} (s : State) {a b : Nat} (v : Byte) (h : q ≠ sp ∨ b ≠ a) :
    (s.putByte sp a v).byteAt q b = s.byteAt q b := by
  by_cases hq : q = sp
  · subst hq
    obtain h | h := h
    · exact absurd rfl h
    · exact byteAt_putByte_ne s q v h
  · exact byteAt_putByte_space s a b v hq

theorem engineStep_of_command {s : State} {i : Instr} (h : s.phase.command = some i) :
    engineStep s = exec i s := by
  rw [engineStep, h]

theorem ne_ready_of_command {s : State} {i : Instr} (h : s.phase.command = some i) :
    s.phase ≠ .ready := by
  intro hp
  rw [hp] at h
  cases h

theorem step_of_noHost {s : State} (hh : s.host = []) : step s = engineStep s := by
  rw [step, systemStep, hh]

theorem issueWord_legal {w : Word} {i : Instr} (s : State) (h : decode w = .legal i) :
    issueWord w s = exec i s := by
  rw [issueWord, h]

theorem step_cmdWrite {s : State} {w : Word} {rest : List HostAction} (hp : s.phase = .ready)
    (hh : s.host = .regWrite 0x00 4 w :: rest) : step s = issueWord w { s with host := rest } :=
  step_of_ready hp hh

theorem tableWord_toNat (w : Word) : tableWord 32 w.toNat = some w := by
  rw [tableWord, Nat.mod_eq_of_lt w.isLt, if_pos w.isLt, BitVec.ofNat_toNat, BitVec.setWidth_eq]

theorem powerOn_inv {c : Config} (h : c.ok = true) : (State.powerOn c).Inv :=
  inv_of_ready rfl h (by simp [State.memOk, State.powerOn, Memory.wf, Memory.within])
    (by simp [State.widthsOk, State.powerOn]) fun he => absurd rfl he

theorem resultReads_of_ok {s : State} (h : s.err = .ok) :
    resultReads s = .regRead RegName.olen.offset 4 :: loadMout s.olen.toNat := by
  rw [resultReads, h]

theorem resultReads_of_error {s : State} (h : s.err ≠ .ok) : resultReads s = [] := by
  cases he : s.err with
  | ok => exact absurd he h
  | _ => rw [resultReads, he]

end Sys2Proof.Machine

namespace Sys2Proof.Proofs.HostPort

open Sys2Proof Sys2Proof.Machine

/-- Settles O29: inside the memory the access is a read of the byte held or a store; outside it faults. -/
theorem readyMemoryAccess : Obligations.ReadyMemoryAccess := by
  intro s sp a v rest hp
  refine ⟨fun hh ha => ?read, fun hh ha => ?write, fun hh ha => ?fault⟩
  case read =>
    rw [step_of_ready hp hh, hostReady, hostMemRead, if_pos ha]
    cases sp <;> rfl
  case write =>
    refine ⟨{ s with host := rest }.putByte sp a v, ?_, byteAt_putByte_same _ sp a v, fun q b hqb => ?_,
      putByte_eq { s with host := rest } sp a v⟩
    · rw [step_of_ready hp hh]
      exact if_pos ha
    · rw [byteAt_putByte_other _ v hqb]
      cases q <;> rfl
  case fault =>
    obtain hh | hh := hh
    · rw [step_of_ready hp hh]
      exact if_neg ha
    · rw [step_of_ready hp hh]
      exact if_neg ha

/-- Settles O31: the power-on state lists no byte, so each reads as its own constant. -/
theorem powerOnState : Obligations.PowerOnState := by
  intro c
  refine ⟨rfl, statusWord_of_ready rfl rfl rfl, rfl, rfl, rfl, rfl, rfl, rfl, rfl, rfl, rfl, rfl, rfl, rfl,
    fun sp a => ?_, engineStep_ready rfl, rfl⟩
  cases sp <;> rfl

/-- Settles O32: the write to `CMD` issues the word, and `withFetchWord` places that write. -/
theorem stepIssuesDecodedCommand : Obligations.StepIssuesDecodedCommand := by
  intro s w i hw
  refine ⟨fun rest hp hh => ?_, ?_⟩
  · rw [step_cmdWrite hp hh, issueWord_legal _ hw]
  · rw [State.withFetchWord, tableWord_toNat]
    exact (step_cmdWrite rfl rfl).trans (issueWord_legal _ hw)

/-- Settles O33: with no host action, a wait or the marker, the step is the engine's. -/
theorem stepRunsEngine : Obligations.StepRunsEngine := by
  intro s i hi
  have hb := busy_of_ne (ne_ready_of_command hi)
  refine ⟨fun hh => ?_, fun rest hh => ?_, fun rest hh => ?_⟩
  · rw [step_of_noHost hh, engineStep_of_command hi]
  · rw [step_of_busy hb hh, hostBusy, ← hh, engineStep_of_command hi]
  · rw [step_of_busy hb hh]
    exact engineStep_of_command hi

/-- Settles O34: a READY engine has no step; the other clauses are arms of `hostReady`. -/
theorem readyBlockIdles : Obligations.ReadyBlockIdles := by
  intro s hp
  refine ⟨fun hh => ?idle, fun rest hh hd => ?goesOn, fun rest hh hd => ?polls, fun rest hh => ?engine,
    fun rest hh => ⟨fun he => ?reads, fun he => ?nothing⟩⟩
  case idle => rw [step_of_noHost hh, engineStep_ready hp]
  case goesOn =>
    rw [step_of_ready hp hh]
    exact if_pos hd
  case polls =>
    rw [step_of_ready hp hh, hostReady, if_neg (by simp [hd]), ← hh]
  case engine => exact step_of_ready hp hh
  case reads =>
    rw [step_of_ready hp hh, hostReady, resultReads_of_ok (by exact he)]
    rfl
  case nothing =>
    rw [step_of_ready hp hh, hostReady, resultReads_of_error (by exact he)]
    rfl

/-- Settles O35: the power-on state is READY, with empty memories and every register 0. -/
theorem powerOnMeetsInvariant : Obligations.PowerOnMeetsInvariant :=
  ⟨fun _ => powerOn_inv, powerOn_inv (c := Config.reference) rfl⟩

end Sys2Proof.Proofs.HostPort
end

section
/-! What one step of a command leaves unchanged (42_embed R115, R123; 43_extract R135, R143), and what of
the memories `EXTRACT` depends on (41_traversal R107). -/

namespace Sys2Proof.Machine

/-- A byte of 128 or more is one whose first bit is 1 (30_encoding R79). -/
theorem topBit_eq_decide (v : Byte) : topBit v = decide (128 ≤ v.toNat) := by
  have hmsb := BitVec.msb_eq_getLsbD_last v
  rw [topBit, ← hmsb, BitVec.msb_eq_decide]

theorem topBit_eq_false_iff {v : Byte} : topBit v = false ↔ v.toNat < 128 := by
  rw [topBit_eq_decide, decide_eq_false_iff_not, Nat.not_le]

theorem topBit_eq_true_iff {v : Byte} : topBit v = true ↔ 128 ≤ v.toNat := by
  rw [topBit_eq_decide, decide_eq_true_iff]

theorem byteAt_pix_congr {s t : State} (h : t.pixMem = s.pixMem) (a : Nat) :
    t.byteAt .pix a = s.byteAt .pix a := by
  simp only [State.byteAt, State.mem, h]

theorem byteAt_mout_congr {s t : State} (h : t.moutMem = s.moutMem) (a : Nat) :
    t.byteAt .mout a = s.byteAt .mout a := by
  simp only [State.byteAt, State.mem, h]

theorem embedIssue_eq (s : State) :
    embedIssue s = raiseError .operandRange (beginIssue s) ∨
      embedIssue s = { beginIssue s with phase := .eCheck } := by
  by_cases hpix : s.cells ≤ s.cfg.pixCells
  · by_cases hmin : s.msgLen ≤ s.cfg.minBytes
    · exact .inr (embedIssue_of_fits hpix hmin)
    · exact .inl (embedIssue_of_message_exceeds (Nat.not_le.mp hmin))
  · exact .inl (embedIssue_of_buffer_exceeds (Nat.not_le.mp hpix))

theorem embedCheck_eq (s : State) :
    (∃ e, embedCheck s = raiseError e s) ∨ embedCheck s = { s with si := 0, phase := .eScan } := by
  by_cases h0 : s.msgLen = 0
  · exact .inl ⟨_, embedCheck_of_empty h0⟩
  · by_cases hc : 8 * s.msgLen + 8 ≤ s.cells
    · exact .inr (embedCheck_of_fits h0 hc)
    · exact .inl ⟨_, embedCheck_of_tooLong h0 (Nat.not_le.mp hc)⟩

theorem extractIssue_eq (s : State) :
    extractIssue s = raiseError .operandRange (beginIssue s) ∨
      extractIssue s = { beginIssue s with pos := 0, g := 0x00, gc := 0, n := 0, phase := .xRead } := by
  by_cases hpix : s.cells ≤ s.cfg.pixCells
  · exact .inr (extractIssue_of_fits hpix)
  · exact .inl (extractIssue_of_buffer_exceeds (Nat.not_le.mp hpix))

/-- The states one step of `EMBED` can leave, by the phase it starts in. -/
theorem exec_embed_cases {s t : State} (h : exec .embed s = .next t) :
    (s.phase = .ready ∧ (t = raiseError .operandRange (beginIssue s) ∨
      t = { beginIssue s with phase := .eCheck })) ∨
    (s.phase = .eCheck ∧ ((∃ e, t = raiseError e s) ∨ t = { s with si := 0, phase := .eScan })) ∨
    (s.phase = .eScan ∧ (t = { s with pos := 0, sc := 0, phase := .eWrite } ∨
      t = raiseError .unsupportedCharacter (s.note (.read .min s.si)) ∨
      t = { s.note (.read .min s.si) with si := s.si + 1 })) ∨
    (s.phase = .eWrite ∧ (s.pos < s.bitLen ∧ t = s.afterData ∨
      ¬ s.pos < s.bitLen ∧ t = s.afterTerminator)) ∨
    (s.phase = .xRead ∧ t = s) := by
  obtain ⟨hp, rfl⟩ | ⟨hp, rfl⟩ | ⟨hp, h⟩ | ⟨hp, h⟩ | ⟨hp, rfl⟩ := execEmbed_cases h
  · exact .inl ⟨hp, embedIssue_eq s⟩
  · exact .inr (.inl ⟨hp, embedCheck_eq s⟩)
  · refine .inr (.inr (.inl ⟨hp, ?_⟩))
    obtain ⟨-, ht⟩ | ⟨-, -, -, ht⟩ | ⟨-, -, -, ht⟩ := embedScan_cases h
    · exact .inl ht
    · exact .inr (.inl ht)
    · exact .inr (.inr ht)
  · refine .inr (.inr (.inr (.inl ⟨hp, ?_⟩)))
    obtain ⟨hlt, -, -, ht⟩ | ⟨hge, -, ht⟩ := embedWrite_cases h
    · exact .inl ⟨hlt, ht⟩
    · exact .inr ⟨hge, ht⟩
  · exact .inr (.inr (.inr (.inr ⟨hp, rfl⟩)))

section embed

variable {s t : State} (h : exec .embed s = .next t)
include h

/-- The registers and memories a step of `EMBED` can change at all. -/
theorem exec_embed_frame : ∃ phase done err pos si sr sc pix port, t = { s with
    phase := phase, done := done, err := err, pos := pos, si := si, sr := sr, sc := sc
    pixMem := pix, port := port } := by
  obtain ⟨-, rfl | rfl⟩ | ⟨-, ⟨e, rfl⟩ | rfl⟩ | ⟨-, rfl | rfl | rfl⟩ | ⟨-, ⟨-, rfl⟩ | ⟨-, rfl⟩⟩ | ⟨-, rfl⟩ :=
    exec_embed_cases h <;> exact ⟨_, _, _, _, _, _, _, _, _, rfl⟩

theorem exec_embed_pixMem_sr (hp : s.phase ≠ .eWrite) : t.pixMem = s.pixMem ∧ t.sr = s.sr := by
  obtain ⟨-, rfl | rfl⟩ | ⟨-, ⟨e, rfl⟩ | rfl⟩ | ⟨-, rfl | rfl | rfl⟩ | ⟨hw, -⟩ | ⟨-, rfl⟩ :=
    exec_embed_cases h
  case inr.inr.inr.inl => exact absurd hw hp
  all_goals exact ⟨rfl, rfl⟩

/-- 42_embed R121: the write pass updates bit 0 of one cell. -/
theorem exec_embed_cell (hp : s.phase = .eWrite) :
    ∃ b, t.byteAt .pix (s.addr (if s.pos < s.bitLen then s.pos else s.bitLen)) =
        withLsb (s.byteAt .pix (s.addr (if s.pos < s.bitLen then s.pos else s.bitLen))) b ∧
      ∀ a, a ≠ s.addr (if s.pos < s.bitLen then s.pos else s.bitLen) →
        t.byteAt .pix a = s.byteAt .pix a := by
  obtain ⟨hq, -⟩ | ⟨hq, -⟩ | ⟨hq, -⟩ | ⟨-, ⟨hlt, rfl⟩ | ⟨hge, rfl⟩⟩ | ⟨hq, -⟩ := exec_embed_cases h
  case inr.inr.inr.inl.inl =>
    rw [if_pos hlt]
    exact ⟨_, afterData_byteAt_same s, fun a => afterData_byteAt_ne s⟩
  case inr.inr.inr.inl.inr =>
    rw [if_neg hge]
    exact ⟨true, (afterTerminator_byteAt_same s).trans (forceLsb_eq_withLsb _),
      fun a => afterTerminator_byteAt_ne s⟩
  all_goals
    rw [hp] at hq
    cases hq

theorem exec_embed_highBits (a : Nat) : t.byteAt .pix a &&& 0xFE = s.byteAt .pix a &&& 0xFE := by
  by_cases hp : s.phase = .eWrite
  · obtain ⟨b, hsame, hne⟩ := exec_embed_cell h hp
    by_cases ha : a = s.addr (if s.pos < s.bitLen then s.pos else s.bitLen)
    · rw [ha, hsame, withLsb_and_highMask]
    · rw [hne a ha]
  · rw [byteAt_pix_congr (exec_embed_pixMem_sr h hp).1]

theorem exec_embed_pos_sc_port (hs : s.phase ≠ .eScan) (hw : s.phase ≠ .eWrite) :
    t.pos = s.pos ∧ t.sc = s.sc ∧ t.port = s.port := by
  obtain ⟨-, rfl | rfl⟩ | ⟨-, ⟨e, rfl⟩ | rfl⟩ | ⟨hq, -⟩ | ⟨hq, -⟩ | ⟨-, rfl⟩ := exec_embed_cases h
  case inr.inr.inl => exact absurd hq hs
  case inr.inr.inr.inl => exact absurd hq hw
  all_goals exact ⟨rfl, rfl, rfl⟩

theorem exec_embed_si (hc : s.phase ≠ .eCheck) (hs : s.phase ≠ .eScan) : t.si = s.si := by
  obtain ⟨-, rfl | rfl⟩ | ⟨hq, -⟩ | ⟨hq, -⟩ | ⟨-, ⟨-, rfl⟩ | ⟨-, rfl⟩⟩ | ⟨-, rfl⟩ := exec_embed_cases h
  case inr.inl => exact absurd hq hc
  case inr.inr.inl => exact absurd hq hs
  all_goals rfl

theorem exec_embed_of_xRead (hp : s.phase = .xRead) : t = s := by
  rw [exec, execEmbed, hp] at h
  cases h
  rfl

/-- `DONE` and `ERR` are written at issue and at completion alone. -/
theorem exec_embed_status (hs : s.phase.busy = true) (ht : t.phase.busy = true) :
    t.done = s.done ∧ t.err = s.err := by
  obtain ⟨hq, -⟩ | ⟨-, ⟨e, rfl⟩ | rfl⟩ | ⟨-, rfl | rfl | rfl⟩ | ⟨-, ⟨-, rfl⟩ | ⟨-, rfl⟩⟩ | ⟨-, rfl⟩ :=
    exec_embed_cases h
  case inl => exact absurd hq (busy_iff.mp hs)
  case inr.inl.inl | inr.inr.inl.inr.inl | inr.inr.inr.inl.inr => cases ht
  all_goals exact ⟨rfl, rfl⟩

end embed

/-- The states one step of `EXTRACT` can leave, by the phase it starts in. -/
theorem exec_extract_cases {s t : State} (h : exec .extract s = .next t) :
    (s.phase = .ready ∧ (t = raiseError .operandRange (beginIssue s) ∨
      t = { beginIssue s with pos := 0, g := 0x00, gc := 0, n := 0, phase := .xRead })) ∨
    ((s.phase = .eCheck ∨ s.phase = .eScan ∨ s.phase = .eWrite) ∧ t = s) ∨
    (s.phase = .xRead ∧ (t = s.afterExhausted ∨ s.gc < 7 ∧ t = s.afterBit ∨ t = s.afterTerminate ∨
      ¬ s.gc < 7 ∧ topBit (pushBit s.g (s.lsbAt s.pos)) = false ∧ t = s.afterEmit)) := by
  obtain ⟨hp, rfl⟩ | h | ⟨hp, h⟩ := execExtract_cases h
  · exact .inl ⟨hp, extractIssue_eq s⟩
  · exact .inr (.inl h)
  · refine .inr (.inr ⟨hp, ?_⟩)
    obtain ⟨-, ht⟩ | ⟨-, -, hg, ht⟩ | ⟨-, -, -, -, ht⟩ | ⟨-, -, hg, hb, -, ht⟩ := extractRead_cases h
    · exact .inl ht
    · exact .inr (.inl ⟨hg, ht⟩)
    · exact .inr (.inr (.inl ht))
    · exact .inr (.inr (.inr ⟨hg, hb, ht⟩))

theorem ne_xRead_of_embed {s : State} (h : s.phase = .eCheck ∨ s.phase = .eScan ∨ s.phase = .eWrite) :
    s.phase ≠ .xRead := by
  obtain h | h | h := h <;> simp [h]

section extract

variable {s t : State} (h : exec .extract s = .next t)
include h

/-- The registers and memories a step of `EXTRACT` can change at all. -/
theorem exec_extract_frame : ∃ phase done err olen pos g gc n mout port, t = { s with
    phase := phase, done := done, err := err, olen := olen, pos := pos, g := g, gc := gc, n := n
    moutMem := mout, port := port } := by
  obtain ⟨-, rfl | rfl⟩ | ⟨-, rfl⟩ | ⟨-, rfl | ⟨-, rfl⟩ | rfl | ⟨-, -, rfl⟩⟩ := exec_extract_cases h <;>
    exact ⟨_, _, _, _, _, _, _, _, _, _, rfl⟩

/-- 43_extract R140: `MOUT` is written only in the step that completes a data group. -/
theorem exec_extract_moutMem (hq : s.phase ≠ .xRead ∨ s.gc < 7 ∨ t.phase = .ready) :
    t.moutMem = s.moutMem := by
  obtain ⟨-, rfl | rfl⟩ | ⟨-, rfl⟩ | ⟨hp, rfl | ⟨-, rfl⟩ | rfl | ⟨hg, -, rfl⟩⟩ := exec_extract_cases h
  case inr.inr.inr.inr.inr =>
    obtain hq | hq | hq := hq
    · exact absurd hp hq
    · exact absurd hq hg
    · exact absurd (hp.symm.trans hq) (by decide)
  all_goals rfl

theorem exec_extract_byteAt_mout {a : Nat} (ha : a ≠ s.n) : t.byteAt .mout a = s.byteAt .mout a := by
  obtain ⟨-, rfl | rfl⟩ | ⟨-, rfl⟩ | ⟨-, rfl | ⟨-, rfl⟩ | rfl | ⟨-, -, rfl⟩⟩ := exec_extract_cases h
  case inr.inr.inr.inr.inr => exact afterEmit_byteAt_ne s ha
  all_goals rfl

theorem exec_extract_olen (hq : s.phase ≠ .xRead ∨ t.phase = .xRead) : t.olen = s.olen := by
  obtain ⟨-, rfl | rfl⟩ | ⟨-, rfl⟩ | ⟨hp, rfl | ⟨-, rfl⟩ | rfl | ⟨-, -, rfl⟩⟩ := exec_extract_cases h
  case inr.inr.inl | inr.inr.inr.inr.inl =>
    obtain hq | hq := hq
    · exact absurd hp hq
    · cases hq
  all_goals rfl

theorem exec_extract_port (hq : s.phase ≠ .xRead) : t.port = s.port := by
  obtain ⟨-, rfl | rfl⟩ | ⟨-, rfl⟩ | ⟨hp, -⟩ := exec_extract_cases h
  case inr.inr => exact absurd hp hq
  all_goals rfl

theorem exec_extract_of_embed (hp : s.phase = .eCheck ∨ s.phase = .eScan ∨ s.phase = .eWrite) :
    t = s := by
  obtain ⟨hq, -⟩ | ⟨-, ht⟩ | ⟨hq, -⟩ := exec_extract_cases h
  · rw [hq] at hp
    simp at hp
  · exact ht
  · exact absurd hq (ne_xRead_of_embed hp)

theorem exec_extract_status (hs : s.phase.busy = true) (ht : t.phase.busy = true) :
    t.done = s.done ∧ t.err = s.err := by
  obtain ⟨hq, -⟩ | ⟨-, rfl⟩ | ⟨-, rfl | ⟨-, rfl⟩ | rfl | ⟨-, -, rfl⟩⟩ := exec_extract_cases h
  case inl => exact absurd hq (busy_iff.mp hs)
  case inr.inr.inl | inr.inr.inr.inr.inl => cases ht
  all_goals exact ⟨rfl, rfl⟩

/-- 43_extract R140, R148: the one byte a step can write is a completed group whose first bit is 0. -/
theorem exec_extract_mout_cases :
    t.moutMem = s.moutMem ∧ (∀ a l, t.port ≠ .write .mout a :: .read .pix l :: s.port) ∨
      topBit (t.byteAt .mout s.n) = false ∧
        t.port = .write .mout s.n :: .read .pix (s.addr s.pos) :: s.port := by
  have hlen (l : List PortAccess) (hl : l.length ≤ s.port.length + 1) (a b : Nat) :
      l ≠ .write .mout a :: .read .pix b :: s.port := by
    rintro rfl
    simp at hl
  obtain ⟨-, rfl | rfl⟩ | ⟨-, rfl⟩ | ⟨-, rfl | ⟨-, rfl⟩ | rfl | ⟨-, hb, rfl⟩⟩ := exec_extract_cases h
  case inr.inr.inr.inr.inr => exact .inr ⟨by rw [afterEmit_byteAt_same, hb], rfl⟩
  case inr.inr.inr.inl | inr.inr.inr.inr.inl => exact .inl ⟨rfl, hlen _ (Nat.le_refl _)⟩
  all_goals exact .inl ⟨rfl, hlen _ (Nat.le_succ _)⟩

end extract

/-- The state with other contents of what `EXTRACT` does not depend on: the message, its length, and the
high bits of the cells (41_traversal R107, 43_extract R143). -/
def State.withOther (s : State) (pix min : Memory) (len : Word) : State :=
  { s with pixMem := pix, minMem := min, mlen := len }

section withOther

variable {s t : State} {pix min : Memory} {len : Word}

theorem extractIssue_withOther : extractIssue (s.withOther pix min len) =
    (extractIssue s).withOther pix min len := by
  by_cases hpix : s.cells ≤ s.cfg.pixCells
  · rw [extractIssue_of_fits hpix, extractIssue_of_fits (s := s.withOther pix min len) hpix]
    rfl
  · have hgt := Nat.not_le.mp hpix
    rw [extractIssue_of_buffer_exceeds hgt,
      extractIssue_of_buffer_exceeds (s := s.withOther pix min len) hgt]
    rfl

/-- One step of `EXTRACT` with another message and another `PIX` of the same LSBs is the same step. -/
theorem exec_extract_withOther (hl : ∀ p, (s.withOther pix min len).lsbAt p = s.lsbAt p)
    (h : exec .extract s = .next t) :
    exec .extract (s.withOther pix min len) = .next (t.withOther pix min len) := by
  obtain ⟨hp, rfl⟩ | ⟨hp, rfl⟩ | ⟨hp, h⟩ := execExtract_cases h
  · rw [exec_extract_of_ready (s := s.withOther pix min len) hp, extractIssue_withOther]
  · have hp' : (t.withOther pix min len).phase = t.phase := rfl
    simp only [exec, execExtract]
    obtain hp | hp | hp := hp <;> rw [hp', hp]
  · rw [exec_extract_of_xRead (s := s.withOther pix min len) hp]
    obtain ⟨he, rfl⟩ | ⟨hne, ha, hg, rfl⟩ | ⟨hne, ha, hg, hb, rfl⟩ | ⟨hne, ha, hg, hb, hn, rfl⟩ :=
      extractRead_cases h
    · exact extractRead_exhausted (s := s.withOther pix min len) he
    · rw [extractRead_bit (s := s.withOther pix min len) hne ha hg, State.afterBit, hl]
      rfl
    · exact extractRead_terminate (s := s.withOther pix min len) hne ha hg (by rw [hl]; exact hb)
    · rw [extractRead_emit (s := s.withOther pix min len) hne ha hg (by rw [hl]; exact hb) hn,
        State.afterEmit, hl]
      rfl

end withOther

end Sys2Proof.Machine

namespace Sys2Proof.Proofs.Embed

open Sys2Proof Sys2Proof.Machine

/-- Settles O11: the frame of the step, and what each phase adds to it. -/
theorem embedFrame : Obligations.EmbedFrame := by
  intro s t h
  have hcell : s.phase = .eWrite → ∀ a, a ≠ s.addr (if s.pos < s.bitLen then s.pos else s.bitLen) →
      t.byteAt .pix a = s.byteAt .pix a := fun hp => by
    obtain ⟨b, -, hne⟩ := exec_embed_cell h hp
    exact hne
  have hpix := exec_embed_pixMem_sr h
  have hhigh := exec_embed_highBits h
  have hpos := exec_embed_pos_sc_port h
  have hsi := exec_embed_si h
  have hread := exec_embed_of_xRead h
  have hst := exec_embed_status h
  obtain ⟨_, _, _, _, _, _, _, _, _, rfl⟩ := exec_embed_frame h
  exact ⟨rfl, rfl, rfl, rfl, rfl, rfl, rfl, rfl, rfl, rfl, rfl, rfl, rfl, rfl, hpix, hcell, hhigh, hpos,
    hsi, hread, hst⟩

end Sys2Proof.Proofs.Embed

namespace Sys2Proof.Proofs.Extract

open Sys2Proof Sys2Proof.Machine

/-- Settles O13: the frame of the step, and when `MOUT`, `OLEN` and `STATUS` change. -/
theorem extractFrame : Obligations.ExtractFrame := by
  intro s t h
  have hmout := exec_extract_moutMem h
  have hbyte (a : Nat) : a ≠ s.n → t.byteAt .mout a = s.byteAt .mout a := exec_extract_byteAt_mout h
  have holen := exec_extract_olen h
  have hport := exec_extract_port h
  have hembed := exec_extract_of_embed h
  have hst := exec_extract_status h
  obtain ⟨_, _, _, _, _, _, _, _, _, _, rfl⟩ := exec_extract_frame h
  exact ⟨rfl, rfl, rfl, rfl, rfl, rfl, rfl, rfl, rfl, rfl, rfl, rfl, rfl, hmout, hbyte, holen, hport,
    hembed, hst⟩

/-- Settles O15: the step depends on neither `MIN` nor `MLEN`. -/
theorem extractIgnoresMessageOperands : Obligations.ExtractIgnoresMessageOperands := by
  intro s t m v h
  have hw := exec_extract_withOther (pix := s.pixMem) (min := m) (len := v) (fun _ => rfl) h
  obtain ⟨_, _, _, _, _, _, _, _, _, _, rfl⟩ := exec_extract_frame h
  exact ⟨rfl, rfl, rfl, hw⟩

/-- Settles O16: the step reads a cell through its bit 0 alone. -/
theorem extractSeesOnlyLsbs : Obligations.ExtractSeesOnlyLsbs := by
  intro s t m hm h
  have hl (p : Nat) : (s.withOther m s.minMem s.mlen).lsbAt p = s.lsbAt p :=
    congrArg (· == 0x01) (hm (s.addr p))
  have hw := exec_extract_withOther hl h
  obtain ⟨_, _, _, _, _, _, _, _, _, _, rfl⟩ := exec_extract_frame h
  exact hw

end Sys2Proof.Proofs.Extract
end

section
/-! Where a step answers a next state (20_memory R50, R53, R57, R59): the engine always, the host where its
move has a meaning. -/

namespace Sys2Proof.Machine

/-- 42_embed R116, R119, R121: each branch of a running `EMBED` answers a next state. -/
theorem exec_embed_goesOn {s : State} (hi : s.Inv)
    (hp : s.phase = .eCheck ∨ s.phase = .eScan ∨ s.phase = .eWrite) : ∃ t, exec .embed s = .next t := by
  obtain hp | hp | hp := hp
  · exact ⟨_, exec_embed_of_eCheck hp⟩
  · rw [exec_embed_of_eScan hp]
    by_cases he : s.si = s.msgLen
    · exact ⟨_, embedScan_done he⟩
    · exact ⟨_, embedScan_byte he (si_lt_minBytes_of_eScan hi hp he)⟩
  · obtain ⟨-, -, -, hpos, -⟩ := phaseOk_of_eWrite hi hp
    obtain hlt | heq := Nat.lt_or_eq_of_le hpos
    · exact ⟨_, exec_embed_data hi hp hlt⟩
    · exact ⟨_, exec_embed_terminator hi hp heq⟩

/-- 43_extract R137: each branch of a running `EXTRACT` answers a next state. -/
theorem exec_extract_goesOn {s : State} (hi : s.Inv) (hp : s.phase = .xRead) :
    ∃ t, exec .extract s = .next t := by
  rw [exec_extract_of_xRead hp]
  by_cases he : s.pos = s.cells
  · exact ⟨_, extractRead_exhausted he⟩
  · have ha := addr_lt_pixCells_of_xRead hi hp he
    by_cases hg : s.gc < 7
    · exact ⟨_, extractRead_bit he ha hg⟩
    · cases hb : topBit (pushBit s.g (s.lsbAt s.pos)) with
      | true => exact ⟨_, extractRead_terminate he ha hg hb⟩
      | false => exact ⟨_, extractRead_emit he ha hg hb (n_lt_moutBytes_of_xRead hi hp he hg)⟩

theorem engineStep_goesOn {s : State} (hi : s.Inv) (hp : s.phase ≠ .ready) : s.engineGoesOn := by
  rw [State.engineGoesOn]
  cases hq : s.phase with
  | ready => exact absurd hq hp
  | eCheck =>
    rw [engineStep_embed (.inl hq)]
    exact exec_embed_goesOn hi (.inl hq)
  | eScan =>
    rw [engineStep_embed (.inr (.inl hq))]
    exact exec_embed_goesOn hi (.inr (.inl hq))
  | eWrite =>
    rw [engineStep_embed (.inr (.inr hq))]
    exact exec_embed_goesOn hi (.inr (.inr hq))
  | xRead =>
    rw [engineStep_extract hq]
    exact exec_extract_goesOn hi hq

/-- 44_command R155: while READY every word has an answer. -/
theorem issueWord_goesOn {s : State} (w : Word) (hp : s.phase = .ready) :
    ∃ t, issueWord w s = .next t := by
  cases hw : decode w with
  | illegal v => exact ⟨_, issueWord_illegal s hw⟩
  | legal i =>
    rw [issueWord_legal s hw]
    cases i with
    | embed => exact ⟨_, exec_embed_of_ready hp⟩
    | extract => exact ⟨_, exec_extract_of_ready hp⟩

/-- A guarded answer is a next state exactly where the guard holds. -/
theorem exists_ite_eq_next {c : Prop} [Decidable c] {u r : Res} (hu : ∃ t, u = .next t)
    (hr : ∀ t, r ≠ .next t) : (∃ t, (if c then u else r) = .next t) ↔ c := by
  by_cases hc : c
  · rw [if_pos hc]
    exact iff_of_true hu hc
  · rw [if_neg hc]
    exact iff_of_false (fun ⟨t, ht⟩ => hr t ht) hc

theorem hostRegRead_goesOn_iff {s : State} {off bytes : Nat} :
    (∃ t, hostRegRead s off bytes = .next t) ↔ regAccessOk off bytes = true :=
  exists_ite_eq_next ⟨_, rfl⟩ fun _ h => nomatch h

/-- While READY a host action is answered exactly where it is well formed. -/
theorem hostReady_goesOn_iff {s : State} {x : HostAction} (hp : s.phase = .ready) :
    (∃ t, hostReady x s = .next t) ↔ x.wf s.cfg = true := by
  cases x with
  | regWrite off bytes v =>
    refine exists_ite_eq_next ?_ fun _ h => nomatch h
    split
    · exact issueWord_goesOn v hp
    · exact ⟨_, rfl⟩
  | regRead off bytes => exact hostRegRead_goesOn_iff
  | memWrite sp a v =>
    refine (exists_ite_eq_next ⟨_, rfl⟩ ?_).trans decide_eq_true_iff.symm
    nofun
  | memRead sp a =>
    refine (exists_ite_eq_next ⟨_, rfl⟩ ?_).trans decide_eq_true_iff.symm
    nofun
  | reset => exact iff_of_true ⟨_, rfl⟩ rfl
  | wait =>
    refine iff_of_true ?_ rfl
    rw [hostReady]
    split <;> exact ⟨_, rfl⟩
  | readResult => exact iff_of_true ⟨_, rfl⟩ rfl
  | engine => exact iff_of_true ⟨_, rfl⟩ rfl

/-- A READY block takes every well-formed action of the host. -/
theorem hostMoveOk_of_ready {s : State} {x : HostAction} {rest : List HostAction} (hp : s.phase = .ready)
    (hh : s.host = x :: rest) : s.hostMoveOk = x.wf s.cfg := by
  rw [State.hostMoveOk, hh, hp]
  cases x <;> rfl

/-- While BUSY a host action is answered where it is well shaped and no memory access. -/
theorem hostBusy_goesOn_iff {s : State} {x : HostAction} {rest : List HostAction} (hi : s.Inv)
    (hp : s.phase ≠ .ready) (hh : s.host = x :: rest) :
    (∃ t, hostBusy x { s with host := rest } = .next t) ↔ s.hostMoveOk = true := by
  have hengine (l : List HostAction) : ∃ t, engineStep { s with host := l } = .next t :=
    engineStep_goesOn (withHost_inv hi l s.seen s.freeIdx) hp
  rw [State.hostMoveOk, hh, busy_of_ne hp]
  cases x with
  | regWrite off bytes v => exact exists_ite_eq_next ⟨_, rfl⟩ fun _ h => nomatch h
  | regRead off bytes => exact hostRegRead_goesOn_iff
  | memWrite sp a v => exact iff_of_false (fun ⟨_, h⟩ => nomatch h) (by simp)
  | memRead sp a => exact iff_of_false (fun ⟨_, h⟩ => nomatch h) (by simp)
  | reset => exact iff_of_true ⟨_, rfl⟩ rfl
  | wait => exact iff_of_true (hengine _) rfl
  | readResult => exact iff_of_false (fun ⟨_, h⟩ => nomatch h) (by simp)
  | engine => exact iff_of_true (hengine _) rfl

end Sys2Proof.Machine

namespace Sys2Proof.Proofs.Safety

open Sys2Proof Sys2Proof.Machine

/-- Settles O37: the invariant gives every offset the engine uses. -/
theorem runningEngineNeverStops : Obligations.RunningEngineNeverStops :=
  fun _ => engineStep_goesOn

/-- Settles O38: with no host action the step is the engine's; else the host's action decides. -/
theorem stopsOnlyOnIllegalHostMove : Obligations.StopsOnlyOnIllegalHostMove := by
  intro s hi
  rw [State.stepsOn]
  by_cases hp : s.phase = .ready
  · cases hh : s.host with
    | nil =>
      rw [step_of_noHost hh, engineStep_ready hp, State.hostMoveOk, hh]
      exact iff_of_true ⟨_, rfl⟩ rfl
    | cons x rest =>
      rw [step_of_ready hp hh, hostMoveOk_of_ready hp hh]
      exact hostReady_goesOn_iff (s := { s with host := rest }) hp
  · cases hh : s.host with
    | nil =>
      rw [step_of_noHost hh, State.hostMoveOk, hh]
      exact iff_of_true (engineStep_goesOn hi hp) rfl
    | cons x rest =>
      rw [step_of_busy (busy_of_ne hp) hh]
      exact hostBusy_goesOn_iff hi hp hh

end Sys2Proof.Proofs.Safety
end

section
/-! The transitions of `PHASE` (44_command R159): what a step can do from each phase. -/

namespace Sys2Proof.Machine

/-- A register access of the right shape is 4 bytes wide (20_memory R53). -/
theorem bytes_eq_of_regAccessOk {off bytes : Nat} (h : regAccessOk off bytes = true) : bytes = 4 := by
  simp only [regAccessOk, Bool.and_eq_true, decide_eq_true_eq] at h
  obtain ⟨hb, -⟩ := h
  exact hb

theorem writeReg_phase_status (s : State) (off : Nat) (v : Word) :
    (writeReg s off v).phase = s.phase ∧ (writeReg s off v).done = s.done ∧
      (writeReg s off v).err = s.err := by
  obtain h | h | h | h | h := writeReg_cases s off v <;> rw [h] <;> exact ⟨rfl, rfl, rfl⟩

/-- While BUSY a step is one of the host's own moves, a reset, or a step of the running command
(44_command R162). -/
theorem busyStep_cases {s t : State} (hp : s.phase ≠ .ready) (h : step s = .next t) :
    (∃ hs o k, t = s.withHost hs o k) ∨
    (s.host.head? = some .reset ∧ ∃ hs, t = resetBlock { s with host := hs }) ∨
    ∃ i hs, s.phase.command = some i ∧ exec i { s with host := hs } = .next t := by
  have hengine (hs : List HostAction) (h : engineStep { s with host := hs } = .next t) :
      ∃ i hs, s.phase.command = some i ∧ exec i { s with host := hs } = .next t := by
    obtain ⟨hq, -⟩ | ⟨i, hi, h⟩ := engineStep_cases h
    · exact absurd hq hp
    · exact ⟨i, hs, hi, h⟩
  cases hh : s.host with
  | nil =>
    rw [step_of_noHost hh] at h
    exact .inr (.inr (hengine s.host h))
  | cons x rest =>
    rw [step_of_busy (busy_of_ne hp) hh] at h
    cases x with
    | reset =>
      cases h
      exact .inr (.inl ⟨rfl, rest, rfl⟩)
    | wait => exact .inr (.inr (hengine _ h))
    | engine => exact .inr (.inr (hengine _ h))
    | memWrite sp a v => cases h
    | memRead sp a => cases h
    | readResult => cases h
    | regRead off bytes =>
      obtain ⟨o, k, rfl⟩ := hostRegRead_cases h
      exact .inl ⟨rest, o, k, rfl⟩
    | regWrite off bytes v =>
      simp only [hostBusy, hostRegWriteBusy] at h
      split at h
      · cases h
        exact .inl ⟨rest, s.seen, s.freeIdx, rfl⟩
      · cases h

/-- While READY only a write to `CMD` and a reset touch `PHASE` and `STATUS` (44_command R161). -/
theorem readyStep_cases {s t : State} (hp : s.phase = .ready) (h : step s = .next t) :
    (∃ w rest, s.host = .regWrite 0x00 4 w :: rest ∧ issueWord w { s with host := rest } = .next t) ∨
    ((∀ w rest, s.host ≠ .regWrite 0x00 4 w :: rest) ∧ t.phase = .ready ∧
      (s.host.head? ≠ some .reset → t.done = s.done ∧ t.err = s.err)) := by
  cases hh : s.host with
  | nil =>
    rw [step_of_noHost hh, engineStep_ready hp] at h
    cases h
    exact .inr ⟨nofun, hp, fun _ => ⟨rfl, rfl⟩⟩
  | cons x rest =>
    rw [step_of_ready hp hh] at h
    cases x with
    | regWrite off bytes v =>
      simp only [hostReady, hostRegWriteReady] at h
      split at h
      · have hb := bytes_eq_of_regAccessOk ‹_›
        subst hb
        split at h
        · have hoff : off = 0x00 := ‹_›
          subst hoff
          exact .inl ⟨v, rest, rfl, h⟩
        · have hne : off ≠ 0x00 := ‹_›
          obtain ⟨hphase, hst⟩ := writeReg_phase_status { s with host := rest } off v
          cases h
          refine .inr ⟨fun w r he => ?_, hphase.trans hp, fun _ => hst⟩
          cases he
          exact hne rfl
      · cases h
    | memWrite sp a v =>
      simp only [hostReady, hostMemWrite] at h
      split at h
      · cases h
        exact .inr ⟨nofun, (putByte_phase _ _ _ _).trans hp,
          fun _ => ⟨putByte_done _ _ _ _, putByte_err _ _ _ _⟩⟩
      · cases h
    | memRead sp a =>
      simp only [hostReady, hostMemRead] at h
      split at h
      · cases h
        exact .inr ⟨nofun, hp, fun _ => ⟨rfl, rfl⟩⟩
      · cases h
    | regRead off bytes =>
      obtain ⟨o, k, rfl⟩ := hostRegRead_cases h
      exact .inr ⟨nofun, hp, fun _ => ⟨rfl, rfl⟩⟩
    | reset =>
      cases h
      exact .inr ⟨nofun, rfl, fun hne => absurd rfl hne⟩
    | wait =>
      simp only [hostReady] at h
      split at h <;> cases h <;> exact .inr ⟨nofun, hp, fun _ => ⟨rfl, rfl⟩⟩
    | readResult =>
      cases h
      exact .inr ⟨nofun, hp, fun _ => ⟨rfl, rfl⟩⟩
    | engine =>
      cases h
      exact .inr ⟨nofun, hp, fun _ => ⟨rfl, rfl⟩⟩

/-- The step changed the host's own fields alone: the engine did not move. -/
def State.sameBlock (s t : State) : Prop :=
  t = { s with host := t.host, seen := t.seen, freeIdx := t.freeIdx }

theorem sameBlock_withHost (s : State) (hs : List HostAction) (o : List HostSeen) (k : Nat) :
    s.sameBlock (s.withHost hs o k) := rfl

theorem issueWord_phase_cases {s t : State} {w : Word} (hp : s.phase = .ready)
    (h : issueWord w s = .next t) :
    (t.phase = .ready ∧ t.done = true ∧
      (w ≠ 0x00000001#32 ∧ w ≠ 0x00000002#32 ∧ t.err = .invalidOperation ∨
        w = 0x00000001#32 ∧ (s.cells > s.cfg.pixCells ∨ s.msgLen > s.cfg.minBytes) ∧
          t.err = .operandRange ∨
        w = 0x00000002#32 ∧ s.cells > s.cfg.pixCells ∧ t.err = .operandRange)) ∨
    (t.phase = .eCheck ∧ w = 0x00000001#32 ∧ s.cells ≤ s.cfg.pixCells ∧ s.msgLen ≤ s.cfg.minBytes) ∨
    (t.phase = .xRead ∧ w = 0x00000002#32 ∧ s.cells ≤ s.cfg.pixCells) := by
  obtain ⟨i, hw, h⟩ | ⟨hw, rfl⟩ := issueWord_cases h
  · have henc : w = encode i := (encode_of_decode hw).symm
    cases i with
    | embed =>
      rw [exec_embed_of_ready hp] at h
      cases h
      by_cases hpix : s.cells ≤ s.cfg.pixCells
      · by_cases hmin : s.msgLen ≤ s.cfg.minBytes
        · exact .inr (.inl ⟨by rw [embedIssue_of_fits hpix hmin], henc, hpix, hmin⟩)
        · have hgt := Nat.not_le.mp hmin
          rw [embedIssue_of_message_exceeds hgt]
          exact .inl ⟨rfl, rfl, .inr (.inl ⟨henc, .inr hgt, rfl⟩)⟩
      · have hgt := Nat.not_le.mp hpix
        rw [embedIssue_of_buffer_exceeds hgt]
        exact .inl ⟨rfl, rfl, .inr (.inl ⟨henc, .inl hgt, rfl⟩)⟩
    | extract =>
      rw [exec_extract_of_ready hp] at h
      cases h
      by_cases hpix : s.cells ≤ s.cfg.pixCells
      · exact .inr (.inr ⟨by rw [extractIssue_of_fits hpix], henc, hpix⟩)
      · have hgt := Nat.not_le.mp hpix
        rw [extractIssue_of_buffer_exceeds hgt]
        exact .inl ⟨rfl, rfl, .inr (.inr ⟨henc, hgt, rfl⟩)⟩
  · refine .inl ⟨rfl, rfl, .inl ⟨?_, ?_, rfl⟩⟩ <;>
    · rintro rfl
      cases hw

section busy

variable {s t : State} (h : step s = .next t)
include h

/-- A step from a BUSY phase: the host's own, a reset, or the step rule of that phase. -/
theorem step_cases_of_embed (hp : s.phase = .eCheck ∨ s.phase = .eScan ∨ s.phase = .eWrite) :
    (t.phase = s.phase ∧ s.sameBlock t) ∨ (t.phase = .ready ∧ s.host.head? = some .reset) ∨
    ∃ hs, execEmbed { s with host := hs } = .next t := by
  have hne : s.phase ≠ .ready := by
    obtain hp | hp | hp := hp <;> simp [hp]
  obtain ⟨hs, o, k, rfl⟩ | ⟨hhead, hs, rfl⟩ | ⟨i, hs, hc, h⟩ := busyStep_cases hne h
  · exact .inl ⟨rfl, sameBlock_withHost s hs o k⟩
  · exact .inr (.inl ⟨rfl, hhead⟩)
  · have hi : i = .embed := by
      obtain hp | hp | hp := hp <;> rw [hp] at hc <;> cases hc <;> rfl
    subst hi
    exact .inr (.inr ⟨hs, h⟩)

theorem step_cases_of_eCheck (hp : s.phase = .eCheck) :
    (t.phase = .ready ∧ (s.host.head? = some .reset ∨ s.msgLen = 0 ∧ t.err = .emptyMessage ∨
      s.msgLen ≠ 0 ∧ 8 * s.msgLen + 8 > s.cells ∧ t.err = .capacityExceeded)) ∨
    (t.phase = .eCheck ∧ s.sameBlock t) ∨
    (t.phase = .eScan ∧ s.msgLen ≠ 0 ∧ 8 * s.msgLen + 8 ≤ s.cells) := by
  obtain ⟨ht, hsame⟩ | ⟨ht, hreset⟩ | ⟨hs, h⟩ := step_cases_of_embed h (.inl hp)
  · exact .inr (.inl ⟨ht.trans hp, hsame⟩)
  · exact .inl ⟨ht, .inl hreset⟩
  · have hexec := exec_embed_of_eCheck (s := { s with host := hs }) hp
    rw [exec, h] at hexec
    cases hexec
    by_cases h0 : s.msgLen = 0
    · rw [embedCheck_of_empty (s := { s with host := hs }) h0]
      exact .inl ⟨rfl, .inr (.inl ⟨h0, rfl⟩)⟩
    · by_cases hc : 8 * s.msgLen + 8 ≤ s.cells
      · rw [embedCheck_of_fits (s := { s with host := hs }) h0 hc]
        exact .inr (.inr ⟨rfl, h0, hc⟩)
      · have hgt := Nat.not_le.mp hc
        rw [embedCheck_of_tooLong (s := { s with host := hs }) h0 hgt]
        exact .inl ⟨rfl, .inr (.inr ⟨h0, hgt, rfl⟩)⟩

theorem step_cases_of_eScan (hi : s.Inv) (hp : s.phase = .eScan) :
    (t.phase = .ready ∧ (s.host.head? = some .reset ∨
      s.si < s.msgLen ∧ 128 ≤ (s.byteAt .min s.si).toNat ∧ t.err = .unsupportedCharacter)) ∨
    (t.phase = .eScan ∧ (s.sameBlock t ∨
      s.si < s.msgLen ∧ (s.byteAt .min s.si).toNat < 128 ∧ t.si = s.si + 1)) ∨
    (t.phase = .eWrite ∧ s.si = s.msgLen) := by
  obtain ⟨-, -, -, hle, -⟩ := phaseOk_of_eScan hi hp
  obtain ⟨ht, hsame⟩ | ⟨ht, hreset⟩ | ⟨hs, h⟩ := step_cases_of_embed h (.inr (.inl hp))
  · exact .inr (.inl ⟨ht.trans hp, .inl hsame⟩)
  · exact .inl ⟨ht, .inl hreset⟩
  · have hexec := exec_embed_of_eScan (s := { s with host := hs }) hp
    rw [exec, h] at hexec
    obtain ⟨he, rfl⟩ | ⟨hne, -, hb, rfl⟩ | ⟨hne, -, hb, rfl⟩ := embedScan_cases hexec.symm
    · exact .inr (.inr ⟨rfl, he⟩)
    · exact .inl ⟨rfl, .inr ⟨Nat.lt_of_le_of_ne hle hne, topBit_eq_true_iff.mp hb, rfl⟩⟩
    · exact .inr (.inl ⟨hp, .inr ⟨Nat.lt_of_le_of_ne hle hne, topBit_eq_false_iff.mp hb, rfl⟩⟩)

theorem step_cases_of_eWrite (hi : s.Inv) (hp : s.phase = .eWrite) :
    (t.phase = .ready ∧ (s.host.head? = some .reset ∨ s.pos = 8 * s.msgLen ∧ t.err = .ok)) ∨
    (t.phase = .eWrite ∧ (s.sameBlock t ∨ s.pos < 8 * s.msgLen ∧ t.pos = s.pos + 1)) := by
  obtain ⟨-, -, -, hle, -⟩ := phaseOk_of_eWrite hi hp
  obtain ⟨ht, hsame⟩ | ⟨ht, hreset⟩ | ⟨hs, h⟩ := step_cases_of_embed h (.inr (.inr hp))
  · exact .inr ⟨ht.trans hp, .inl hsame⟩
  · exact .inl ⟨ht, .inl hreset⟩
  · have hexec := exec_embed_of_eWrite (s := { s with host := hs }) hp
    rw [exec, h] at hexec
    obtain ⟨hlt, -, -, rfl⟩ | ⟨hge, -, rfl⟩ := embedWrite_cases hexec.symm
    · exact .inr ⟨hp, .inr ⟨hlt, rfl⟩⟩
    · exact .inl ⟨rfl, .inr ⟨Nat.le_antisymm hle (Nat.not_lt.mp hge), rfl⟩⟩

theorem step_cases_of_xRead (hi : s.Inv) (hp : s.phase = .xRead) :
    (t.phase = .ready ∧ (s.host.head? = some .reset ∨ s.pos = s.cells ∧ t.err = .noTerminatorFound ∨
      s.pos < s.cells ∧ s.pos % 8 = 7 ∧ topBit (pushBit s.g (s.lsbAt s.pos)) = true ∧ t.err = .ok)) ∨
    (t.phase = .xRead ∧ (s.sameBlock t ∨ s.pos < s.cells ∧ t.pos = s.pos + 1 ∧
      (s.pos % 8 = 7 → topBit (pushBit s.g (s.lsbAt s.pos)) = false))) := by
  obtain ⟨-, hle, hgc, -⟩ := phaseOk_of_xRead hi hp
  obtain ⟨hs, o, k, rfl⟩ | ⟨hhead, hs, rfl⟩ | ⟨i, hs, hc, h⟩ := busyStep_cases (by simp [hp]) h
  · exact .inr ⟨hp, .inl (sameBlock_withHost s hs o k)⟩
  · exact .inl ⟨rfl, .inl hhead⟩
  · rw [hp] at hc
    cases hc
    rw [exec_extract_of_xRead (s := { s with host := hs }) hp] at h
    obtain ⟨he, rfl⟩ | ⟨hne, -, hg, rfl⟩ | ⟨hne, -, hg, hb, rfl⟩ | ⟨hne, -, hg, hb, -, rfl⟩ :=
      extractRead_cases h
    · exact .inl ⟨rfl, .inr (.inl ⟨he, rfl⟩)⟩
    · have hg' : s.gc < 7 := hg
      exact .inr ⟨hp, .inr ⟨Nat.lt_of_le_of_ne hle hne, rfl, fun h7 => by omega⟩⟩
    · have hg' : ¬ s.gc < 7 := hg
      exact .inl ⟨rfl, .inr (.inr ⟨Nat.lt_of_le_of_ne hle hne, by omega, hb, rfl⟩)⟩
    · exact .inr ⟨hp, .inr ⟨Nat.lt_of_le_of_ne hle hne, rfl, fun _ => hb⟩⟩

end busy

end Sys2Proof.Machine

namespace Sys2Proof.Proofs.Command

open Sys2Proof Sys2Proof.Machine

/-- Settles O40: a step of the running command keeps the operands and `MIN`; a reset clears the operand
registers only. -/
theorem operandsFixedWhileBusy : Obligations.OperandsFixedWhileBusy := by
  intro s t hp h
  obtain ⟨hs, o, k, rfl⟩ | ⟨hhead, hs, rfl⟩ | ⟨i, hs, -, h⟩ := busyStep_cases hp h
  · exact ⟨rfl, rfl, fun _ => ⟨rfl, rfl, rfl, rfl⟩⟩
  · exact ⟨rfl, rfl, fun hne => absurd hhead hne⟩
  · cases i with
    | embed =>
      obtain ⟨_, _, _, _, _, _, _, _, _, rfl⟩ := exec_embed_frame h
      exact ⟨rfl, rfl, fun _ => ⟨rfl, rfl, rfl, rfl⟩⟩
    | extract =>
      obtain ⟨_, _, _, _, _, _, _, _, _, _, rfl⟩ := exec_extract_frame h
      exact ⟨rfl, rfl, fun _ => ⟨rfl, rfl, rfl, rfl⟩⟩

/-- Settles O39: the step lemma of each phase. -/
theorem phaseGraph : Obligations.PhaseGraph := by
  intro s t hi h
  cases hp : s.phase with
  | ready =>
    obtain ⟨w, rest, hh, h⟩ | ⟨hno, ht, hst⟩ := readyStep_cases hp h
    · obtain ⟨ht, hdone, hw⟩ | ⟨ht, rfl, hfits⟩ | ⟨ht, rfl, hfits⟩ :=
        issueWord_phase_cases (s := { s with host := rest }) hp h <;> simp only [ht]
      · refine ⟨fun w' rest' hh' => ?_, fun hno => absurd hh (hno w rest)⟩
        rw [hh] at hh'
        cases hh'
        exact ⟨hdone, hw⟩
      · exact ⟨⟨rest, hh⟩, hfits⟩
      · exact ⟨⟨rest, hh⟩, hfits⟩
    · simp only [ht]
      exact ⟨fun w rest hh => absurd hh (hno w rest), fun _ hne => hst hne⟩
  | eCheck =>
    obtain ⟨ht, hc⟩ | ⟨ht, hc⟩ | ⟨ht, hc⟩ := step_cases_of_eCheck h hp <;>
      simpa only [ht, State.sameBlock, hp, topBit] using hc
  | eScan =>
    obtain ⟨ht, hc⟩ | ⟨ht, hc⟩ | ⟨ht, hc⟩ := step_cases_of_eScan h hi hp <;>
      simpa only [ht, State.sameBlock, hp, topBit] using hc
  | eWrite =>
    obtain ⟨ht, hc⟩ | ⟨ht, hc⟩ := step_cases_of_eWrite h hi hp <;>
      simpa only [ht, State.sameBlock, hp, topBit] using hc
  | xRead =>
    rw [← pushBit_lsbAt]
    obtain ⟨ht, hc⟩ | ⟨ht, hc⟩ := step_cases_of_xRead h hi hp <;>
      simpa only [ht, State.sameBlock, hp, topBit] using hc

end Sys2Proof.Proofs.Command
end

section
/-! Whole commands (00_scope R13, 44_command R166): runs of steps that stay BUSY, and the command that ends
one. -/

namespace Sys2Proof.Machine

/-- `n` steps of a command lead from `s` to `t`, each of them from a BUSY state. -/
def RunsFor (i : Instr) (n : Nat) (s t : State) : Prop :=
  execTimes i n s = .next t ∧ ∀ k, k < n → ∃ u, execTimes i k s = .next u ∧ u.phase ≠ .ready

/-- A command issued in `s` ends in `t`, `n` steps after its issue (44_command R166). -/
def EndsAfter (i : Instr) (n : Nat) (s t : State) : Prop :=
  t.phase = .ready ∧ t.done = true ∧ ∃ u, exec i s = .next u ∧ RunsFor i n u t

theorem runsFor_zero (i : Instr) (s : State) : RunsFor i 0 s s :=
  ⟨rfl, fun k hk => absurd hk k.not_lt_zero⟩

theorem runsFor_one {i : Instr} {s t : State} (hp : s.phase ≠ .ready) (h : exec i s = .next t) :
    RunsFor i 1 s t :=
  ⟨execTimes_succ h, fun k hk => ⟨s, by rw [Nat.lt_one_iff.mp hk]; rfl, hp⟩⟩

theorem RunsFor.trans {i : Instr} {m n : Nat} {s t u : State} (h₁ : RunsFor i m s t)
    (h₂ : RunsFor i n t u) : RunsFor i (m + n) s u := by
  obtain ⟨hm, hbusym⟩ := h₁
  obtain ⟨hn, hbusyn⟩ := h₂
  refine ⟨(execTimes_add hm).trans hn, fun k hk => ?_⟩
  obtain hlt | hge := Nat.lt_or_ge k m
  · exact hbusym k hlt
  · obtain ⟨v, hv, hp⟩ := hbusyn (k - m) (by omega)
    refine ⟨v, ?_, hp⟩
    rw [← Nat.add_sub_of_le hge, execTimes_add hm, hv]

/-- A sequence of BUSY states, each the step of the one before, is a run. -/
theorem runsFor_of_steps {i : Instr} {n : Nat} {f : Nat → State}
    (h : ∀ k, k < n → (f k).phase ≠ .ready ∧ exec i (f k) = .next (f (k + 1))) :
    RunsFor i n (f 0) (f n) := by
  induction n with
  | zero => exact runsFor_zero i _
  | succ n ih =>
    obtain ⟨hp, hstep⟩ := h n n.lt_succ_self
    exact (ih fun k hk => h k (Nat.lt_succ_of_lt hk)).trans (runsFor_one hp hstep)

theorem EndsAfter.execTimes_eq {i : Instr} {n : Nat} {s t : State} (h : EndsAfter i n s t) :
    execTimes i (n + 1) s = .next t := by
  obtain ⟨-, -, u, hissue, hrun, -⟩ := h
  rw [execTimes_succ hissue, hrun]

theorem EndsAfter.busy_before {i : Instr} {n : Nat} {s t : State} (h : EndsAfter i n s t) {k : Nat}
    (hk : k < n) : ∃ u, execTimes i (k + 1) s = .next u ∧ u.phase ≠ .ready := by
  obtain ⟨-, -, u, hissue, -, hbusy⟩ := h
  rw [execTimes_succ hissue]
  exact hbusy k hk

/-- Steps are functions: what a whole command answers is its one end. -/
theorem EndsAfter.eq_of_execTimes {i : Instr} {n : Nat} {s t u : State} (h : EndsAfter i n s t)
    (hu : execTimes i (n + 1) s = .next u) : u = t := by
  rw [h.execTimes_eq] at hu
  cases hu
  rfl

theorem execTimes_inv {i : Instr} {n : Nat} {s t : State} (hi : s.Inv) (h : execTimes i n s = .next t) :
    t.Inv := by
  induction n generalizing s with
  | zero =>
    cases h
    exact hi
  | succ n ih =>
    rw [execTimes] at h
    split at h
    · exact ih (exec_inv hi ‹_›) h
    · cases h
    · cases h

end Sys2Proof.Machine
end

section
/-! The passes of `EMBED` (42_embed R119, R121) as runs, and what a whole `EMBED` leaves: its outcomes, the
cells it writes, and the accesses it makes (42_embed R124, R125, R127, R130, R131). -/

namespace Sys2Proof.Machine

theorem firstBadByte_eq_some_iff {s : State} {i : Nat} : s.firstBadByte = some i ↔
    topBit (s.byteAt .min i) = true ∧ i < s.msgLen ∧ s.plainBelow i := by
  rw [State.firstBadByte, List.find?_range_eq_some, List.mem_range]
  simp only [Bool.not_eq_true', State.plainBelow]

theorem firstBadByte_eq_none_iff {s : State} : s.firstBadByte = none ↔ s.plainBelow s.msgLen := by
  rw [State.firstBadByte, List.find?_range_eq_none]
  simp only [Bool.not_eq_true', State.plainBelow]

/-- 41_traversal R104: the cells of different positions are different bytes. -/
theorem addr_ne {s : State} {p q : Nat} (hp : p < s.cells) (hq : q < s.cells) (hne : p ≠ q) :
    s.addr p ≠ s.addr q := fun he => hne (addrAt_injective hp hq he)

/-- The operands of an accepted `EMBED`: in range, and the frame fits the buffer. -/
def State.embedFits (s : State) : Prop :=
  s.cells ≤ s.cfg.pixCells ∧ s.msgLen ≤ s.cfg.minBytes ∧ s.msgLen ≠ 0 ∧ 8 * s.msgLen + 8 ≤ s.cells

/-- The outcomes of `EMBED` in the order of 60_exceptions R179, with what R127, R130 and R131 of 42_embed
give for each. -/
theorem embed_outcomes (s : State) :
    ((s.cells > s.cfg.pixCells ∨ s.msgLen > s.cfg.minBytes) ∧
      s.embedError = some .operandRange ∧ s.embedSteps = 0 ∧ s.embedTrace = []) ∨
    (s.cells ≤ s.cfg.pixCells ∧ s.msgLen ≤ s.cfg.minBytes ∧ s.msgLen = 0 ∧
      s.embedError = some .emptyMessage ∧ s.embedSteps = 1 ∧ s.embedTrace = []) ∨
    (s.cells ≤ s.cfg.pixCells ∧ s.msgLen ≤ s.cfg.minBytes ∧ s.msgLen ≠ 0 ∧
      8 * s.msgLen + 8 > s.cells ∧
      s.embedError = some .capacityExceeded ∧ s.embedSteps = 1 ∧ s.embedTrace = []) ∨
    (∃ i, s.embedFits ∧ topBit (s.byteAt .min i) = true ∧ i < s.msgLen ∧ s.plainBelow i ∧
      s.embedError = some .unsupportedCharacter ∧ s.embedSteps = 1 + i + 1 ∧
      s.embedTrace = scanTrace (i + 1)) ∨
    (s.embedFits ∧ s.plainBelow s.msgLen ∧
      s.embedError = none ∧ s.embedSteps = 9 * s.msgLen + 3 ∧
      s.embedTrace = scanTrace s.msgLen ++ (List.range s.bitLen).flatMap s.cellTrace ++
        [.read .pix (s.addr s.bitLen), .write .pix (s.addr s.bitLen)]) := by
  by_cases hrange : s.cells > s.cfg.pixCells ∨ s.msgLen > s.cfg.minBytes
  · refine .inl ⟨hrange, ?_⟩
    simp only [State.embedError, State.embedSteps, State.embedTrace, if_pos hrange, and_self]
  · have hpix : s.cells ≤ s.cfg.pixCells := by omega
    have hmin : s.msgLen ≤ s.cfg.minBytes := by omega
    by_cases h0 : s.msgLen = 0
    · refine .inr (.inl ⟨hpix, hmin, h0, ?_⟩)
      simp only [State.embedError, State.embedSteps, State.embedTrace, if_neg hrange, if_pos h0,
        and_self]
    · by_cases hc : 8 * s.msgLen + 8 > s.cells
      · refine .inr (.inr (.inl ⟨hpix, hmin, h0, hc, ?_⟩))
        simp only [State.embedError, State.embedSteps, State.embedTrace, if_neg hrange, if_neg h0,
          if_pos hc, and_self]
      · have hfits : s.embedFits := ⟨hpix, hmin, h0, Nat.not_lt.mp hc⟩
        cases hbad : s.firstBadByte with
        | some i =>
          obtain ⟨hb, hlt, hplain⟩ := firstBadByte_eq_some_iff.mp hbad
          refine .inr (.inr (.inr (.inl ⟨i, hfits, hb, hlt, hplain, ?_⟩)))
          simp only [State.embedError, State.embedSteps, State.embedTrace, if_neg hrange, if_neg h0,
            if_neg hc, hbad, and_self]
        | none =>
          refine .inr (.inr (.inr (.inr ⟨hfits, firstBadByte_eq_none_iff.mp hbad, ?_⟩)))
          simp only [State.embedError, State.embedSteps, State.embedTrace, if_neg hrange, if_neg h0,
            if_neg hc, hbad, and_self]

/-! ### Issue and validation -/

/-- The accepted command, about to check its message. -/
def State.embedStart (s : State) : State := { beginIssue s with phase := .eCheck }

/-- The validation pass with the first `k` message bytes validated (42_embed R119). -/
def State.scanned (s : State) (k : Nat) : State :=
  { beginIssue s with phase := .eScan, si := k, port := (scanTrace k).reverse ++ s.port }

theorem scanTrace_succ (k : Nat) : scanTrace (k + 1) = scanTrace k ++ [.read .min k] := by
  rw [scanTrace, List.range_succ, List.map_append]
  rfl

/-- A validated byte is one access more. -/
theorem scanTrace_succ_reverse (k : Nat) (l : List PortAccess) :
    (scanTrace (k + 1)).reverse ++ l = .read .min k :: ((scanTrace k).reverse ++ l) := by
  rw [scanTrace_succ, List.reverse_append]
  rfl

section embed

variable {s : State}

theorem exec_embed_issue (hp : s.phase = .ready) (hpix : s.cells ≤ s.cfg.pixCells)
    (hmin : s.msgLen ≤ s.cfg.minBytes) : exec .embed s = .next s.embedStart := by
  rw [exec_embed_of_ready hp, embedIssue_of_fits hpix hmin, State.embedStart]

/-- 42_embed R116: the check passes, and the validation pass begins. -/
theorem runsFor_check (hfits : s.embedFits) : RunsFor .embed 1 s.embedStart (s.scanned 0) := by
  obtain ⟨-, -, h0, hc⟩ := hfits
  refine runsFor_one (nofun : Phase.eCheck ≠ .ready) ?_
  rw [exec_embed_of_eCheck rfl, embedCheck_of_fits (s := s.embedStart) h0 hc]
  rfl

/-- 42_embed R119: the bytes below 128 are passed, one step and one read each. -/
theorem runsFor_scan {k : Nat} (hfits : s.embedFits) (hk : k ≤ s.msgLen) (hplain : s.plainBelow k) :
    RunsFor .embed k (s.scanned 0) (s.scanned k) := by
  obtain ⟨-, hmin, -, -⟩ := hfits
  refine runsFor_of_steps fun j hj => ⟨(nofun : Phase.eScan ≠ .ready), ?_⟩
  have hne : (s.scanned j).si ≠ (s.scanned j).msgLen := Nat.ne_of_lt (Nat.lt_of_lt_of_le hj hk)
  have hlt : (s.scanned j).si < (s.scanned j).cfg.minBytes :=
    Nat.lt_of_lt_of_le hj (Nat.le_trans hk hmin)
  have hb : topBit ((s.scanned j).byteAt .min (s.scanned j).si) = false := hplain j hj
  rw [exec_embed_of_eScan rfl, embedScan_byte hne hlt, hb, State.scanned, State.scanned,
    scanTrace_succ_reverse]
  rfl

/-! ### The write pass -/

/-- The start of the write pass (42_embed R119, R121). -/
def State.writeStart (s : State) : State :=
  { s.scanned s.msgLen with pos := 0, sc := 0, phase := .eWrite }

/-- The write pass from `s` has handled positions `0 .. p - 1`: the cells hold the bits, no other byte of
`PIX` has changed, and the accesses are those of 42_embed R130. -/
structure WriteProgress (s : State) (p : Nat) (t : State) : Prop where
  inv : t.Inv
  frame : ∃ sr sc pix port, t = { s with pos := p, sr := sr, sc := sc, pixMem := pix, port := port }
  cell : ∀ q, q < p → t.byteAt .pix (s.addr q) = withLsb (s.byteAt .pix (s.addr q)) (s.bit q)
  other : ∀ a, (∀ q, q < p → a ≠ s.addr q) → t.byteAt .pix a = s.byteAt .pix a
  port : t.port = ((List.range p).flatMap s.cellTrace).reverse ++ s.port

theorem writeProgress_zero (hi : s.Inv) (hpos : s.pos = 0) : WriteProgress s 0 s where
  inv := hi
  frame := ⟨s.sr, s.sc, s.pixMem, s.port, by rw [← hpos]⟩
  cell q hq := absurd hq q.not_lt_zero
  other _ _ := rfl
  port := rfl

/-- 42_embed R130, newest access first. -/
theorem cellTrace_reverse (p : Nat) : (s.cellTrace p).reverse =
    .write .pix (s.addr p) :: .read .pix (s.addr p) :: if p % 8 = 0 then [.read .min (p / 8)] else [] := by
  rw [State.cellTrace]
  split <;> rfl

/-- 42_embed R121: one data cell more. Different positions are different cells, so the cells already
written stay. -/
theorem WriteProgress.step {t : State} {p : Nat} (h : WriteProgress s p t) (hp : s.phase = .eWrite)
    (hlt : p < s.bitLen) :
    WriteProgress s (p + 1) t.afterData ∧ t.phase ≠ .ready ∧ exec .embed t = .next t.afterData := by
  obtain ⟨hi, ⟨sr, sc, pix, port, ht⟩, hcell, hother, hport⟩ := h
  have htpos : t.pos = p := by rw [ht]
  have htp : t.phase = .eWrite := by rw [ht]; exact hp
  have haddr : t.addr = s.addr := by rw [ht]; rfl
  have hbit : t.bit = s.bit := by rw [ht]; rfl
  have hbitLen : t.bitLen = s.bitLen := by rw [ht]; rfl
  have hcells : t.cells = s.cells := by rw [ht]; rfl
  obtain ⟨-, -, ⟨-, hfit⟩, -, -, hser⟩ := phaseOk_of_eWrite hi htp
  have hpcells : p < s.cells := by
    rw [← hbitLen, State.bitLen] at hlt
    omega
  have hsame := afterData_byteAt_same t
  rw [topBit_srAt_of_serializerOk hser, htpos, haddr, hbit] at hsame
  have hne (a : Nat) (ha : a ≠ s.addr p) : t.afterData.byteAt .pix a = t.byteAt .pix a :=
    afterData_byteAt_ne t (by rwa [htpos, haddr])
  have hexec := exec_embed_data hi htp (by rwa [htpos, hbitLen])
  refine ⟨⟨exec_inv hi hexec, ⟨t.afterData.sr, t.afterData.sc, t.afterData.pixMem, t.afterData.port, ?_⟩,
    fun q hq => ?_, fun a ha => ?_, ?_⟩, by simp [htp], hexec⟩
  · subst ht
    rfl
  · obtain hq | rfl := Nat.lt_succ_iff_lt_or_eq.mp hq
    · rw [hne _ (addr_ne (Nat.lt_trans hq hpcells) hpcells hq.ne), hcell q hq]
    · rw [hsame, hother _ fun q' hq' => addr_ne hpcells (Nat.lt_trans hq' hpcells) hq'.ne']
  · rw [hne a (ha p p.lt_succ_self), hother a fun q hq => ha q (Nat.lt_succ_of_lt hq)]
  · have hserial : t.afterData.port =
        .write .pix (t.addr t.pos) :: .read .pix (t.addr t.pos) :: t.serialPort t.pos := rfl
    rw [hserial, serialPort_of_serializerOk hser, htpos, haddr, hport, List.range_succ,
      List.flatMap_append, List.flatMap_singleton, List.reverse_append, cellTrace_reverse]
    split <;> rfl

theorem writeProgress_iterate (hi : s.Inv) (hp : s.phase = .eWrite) (hpos : s.pos = 0) {p : Nat}
    (hle : p ≤ s.bitLen) : WriteProgress s p (State.afterData^[p] s) := by
  induction p with
  | zero => exact writeProgress_zero hi hpos
  | succ p ih =>
    rw [Function.iterate_succ_apply']
    exact ((ih (Nat.le_of_succ_le hle)).step hp hle).1

/-- 42_embed R121: the data cells, one step each. -/
theorem runsFor_data (hi : s.Inv) (hp : s.phase = .eWrite) (hpos : s.pos = 0) :
    RunsFor .embed s.bitLen s (State.afterData^[s.bitLen] s) := by
  refine runsFor_of_steps (f := fun p => State.afterData^[p] s) fun p hlt => ?_
  obtain ⟨-, hbusy, hexec⟩ := (writeProgress_iterate hi hp hpos (Nat.le_of_lt hlt)).step hp hlt
  rw [Function.iterate_succ_apply']
  exact ⟨hbusy, hexec⟩

/-! ### The whole command -/

/-- What an `EMBED` that succeeds leaves of the state at issue (42_embed R124, R130). -/
structure Embedded (s t : State) : Prop where
  frame : ∃ pos si sr sc pix port, t = { s with
    done := true, err := .ok, pixMem := pix, pos := pos, si := si, sr := sr, sc := sc, port := port }
  data : ∀ p, p < s.bitLen → t.byteAt .pix (s.addr p) = withLsb (s.byteAt .pix (s.addr p)) (s.bit p)
  terminator : t.byteAt .pix (s.addr s.bitLen) = forceLsb (s.byteAt .pix (s.addr s.bitLen))
  other : ∀ a, (∀ p, p ≤ s.bitLen → a ≠ s.addr p) → t.byteAt .pix a = s.byteAt .pix a
  port : t.port = s.embedTrace.reverse ++ s.port

/-- 42_embed R121, R122: after the data cells, the terminator cell ends the pass. -/
theorem runsFor_write (hi : s.Inv) (hp : s.phase = .eWrite) (hpos : s.pos = 0) :
    ∃ t, RunsFor .embed (s.bitLen + 1) s t ∧
      (∃ sr sc pix port, t = { s with phase := .ready, done := true, err := .ok, pos := s.bitLen + 1
                                      sr := sr, sc := sc, pixMem := pix, port := port }) ∧
      (∀ p, p < s.bitLen →
        t.byteAt .pix (s.addr p) = withLsb (s.byteAt .pix (s.addr p)) (s.bit p)) ∧
      t.byteAt .pix (s.addr s.bitLen) = forceLsb (s.byteAt .pix (s.addr s.bitLen)) ∧
      (∀ a, (∀ p, p ≤ s.bitLen → a ≠ s.addr p) → t.byteAt .pix a = s.byteAt .pix a) ∧
      t.port = .write .pix (s.addr s.bitLen) :: .read .pix (s.addr s.bitLen) ::
        (((List.range s.bitLen).flatMap s.cellTrace).reverse ++ s.port) := by
  obtain ⟨-, -, ⟨-, hfit⟩, -⟩ := phaseOk_of_eWrite hi hp
  have hcells : s.bitLen < s.cells := by
    rw [State.bitLen]
    omega
  have hdata := runsFor_data hi hp hpos
  obtain ⟨hiu, ⟨sr, sc, pix, port, hu⟩, hcell, hother, hport⟩ :=
    writeProgress_iterate hi hp hpos (Nat.le_refl s.bitLen)
  generalize State.afterData^[s.bitLen] s = u at hdata hiu hu hcell hother hport
  have hup : u.phase = .eWrite := by rw [hu]; exact hp
  have haddr : u.addr = s.addr := by rw [hu]; rfl
  have hbitLen : u.bitLen = s.bitLen := by rw [hu]; rfl
  have hexec := exec_embed_terminator hiu hup (by rw [hu]; rfl)
  have hsame := afterTerminator_byteAt_same u
  have hne (a : Nat) (ha : a ≠ s.addr s.bitLen) : u.afterTerminator.byteAt .pix a = u.byteAt .pix a :=
    afterTerminator_byteAt_ne u (by rwa [haddr, hbitLen])
  rw [haddr, hbitLen] at hsame
  refine ⟨u.afterTerminator, hdata.trans (runsFor_one (by simp [hup]) hexec), ?_, fun p hlt => ?_, ?_,
    fun a ha => ?_, ?_⟩
  · subst hu
    exact ⟨_, _, _, _, rfl⟩
  · rw [hne _ (addr_ne (Nat.lt_trans hlt hcells) hcells hlt.ne), hcell p hlt]
  · rw [hsame, hother _ fun q hq => addr_ne hcells (Nat.lt_trans hq hcells) hq.ne']
  · rw [hne a (ha _ (Nat.le_refl _)), hother a fun q hq => ha q (Nat.le_of_lt hq)]
  · have hend : u.afterTerminator.port =
        .write .pix (u.addr u.bitLen) :: .read .pix (u.addr u.bitLen) :: u.port := rfl
    rw [hend, haddr, hbitLen, hport]

/-- 42_embed R127: with an error, the command ends with the first one, and but for `STATUS`, `SI` and the
accesses on record the state is as at issue. -/
theorem embed_fails (hp : s.phase = .ready) {e : ErrorKind}
    (he : s.embedError = some e) :
    ∃ si, EndsAfter .embed s.embedSteps s { s with
      done := true, err := e, si := si, port := s.embedTrace.reverse ++ s.port } := by
  obtain ⟨hrange, herr, hn, htr⟩ | ⟨hpix, hmin, h0, herr, hn, htr⟩ | ⟨hpix, hmin, h0, hc, herr, hn, htr⟩ |
    ⟨i, hfits, hb, hlt, hplain, herr, hn, htr⟩ | ⟨-, -, herr, -⟩ := embed_outcomes s
  case inr.inr.inr.inr =>
    rw [he] at herr
    cases herr
  all_goals
    rw [he] at herr
    cases herr
    rw [hn, htr]
  case inl =>
    refine ⟨s.si, hp, rfl, _, ?_, runsFor_zero _ _⟩
    rw [exec_embed_of_ready hp]
    refine congrArg _ (Eq.trans ?_ (raiseError_beginIssue_of_ready _ hp))
    obtain hgt | hgt := hrange
    · exact embedIssue_of_buffer_exceeds hgt
    · exact embedIssue_of_message_exceeds hgt
  case inr.inl =>
    refine ⟨s.si, hp, rfl, s.embedStart, exec_embed_issue hp hpix hmin,
      runsFor_one (nofun : Phase.eCheck ≠ .ready) ?_⟩
    rw [exec_embed_of_eCheck rfl, embedCheck_of_empty (s := s.embedStart) h0]
    exact congrArg _ (raiseError_beginIssue_of_ready _ hp)
  case inr.inr.inl =>
    refine ⟨s.si, hp, rfl, s.embedStart, exec_embed_issue hp hpix hmin,
      runsFor_one (nofun : Phase.eCheck ≠ .ready) ?_⟩
    rw [exec_embed_of_eCheck rfl, embedCheck_of_tooLong (s := s.embedStart) h0 hc]
    exact congrArg _ (raiseError_beginIssue_of_ready _ hp)
  case inr.inr.inr.inl =>
    obtain ⟨hpix, hmin, -⟩ := id hfits
    refine ⟨i, hp, rfl, s.embedStart, exec_embed_issue hp hpix hmin,
      ((runsFor_check hfits).trans (runsFor_scan hfits (Nat.le_of_lt hlt) hplain)).trans
        (runsFor_one (nofun : Phase.eScan ≠ .ready) ?_)⟩
    have hne : (s.scanned i).si ≠ (s.scanned i).msgLen := Nat.ne_of_lt hlt
    have hbyte : topBit ((s.scanned i).byteAt .min (s.scanned i).si) = true := hb
    rw [exec_embed_of_eScan rfl, embedScan_byte hne (Nat.lt_of_lt_of_le hlt hmin), if_pos hbyte,
      scanTrace_succ_reverse, raiseError, ← hp]
    rfl

/-- 42_embed R127: with no error, the command ends after all its cells. -/
theorem embed_succeeds (hi : s.Inv) (hp : s.phase = .ready) (he : s.embedError = none) :
    ∃ t, EndsAfter .embed s.embedSteps s t ∧ Embedded s t := by
  obtain ⟨-, herr, -⟩ | ⟨-, -, -, herr, -⟩ | ⟨-, -, -, -, herr, -⟩ | ⟨-, -, -, -, -, herr, -⟩ |
    ⟨hfits, hplain, -, hn, htr⟩ := embed_outcomes s
  case inr.inr.inr.inr =>
    obtain ⟨hpix, hmin, -⟩ := id hfits
    have hissue := exec_embed_issue hp hpix hmin
    have hscan : RunsFor .embed (1 + s.msgLen + 1) s.embedStart s.writeStart :=
      ((runsFor_check hfits).trans (runsFor_scan hfits (Nat.le_refl _) hplain)).trans
        (runsFor_one (nofun : Phase.eScan ≠ .ready) (embedScan_done (s := s.scanned s.msgLen) rfl))
    have hiw : s.writeStart.Inv := execTimes_inv (exec_inv hi hissue) hscan.1
    obtain ⟨t, hrun, ⟨sr, sc, pix, port, ht⟩, hdata, hterm, hother, hport⟩ :=
      runsFor_write hiw rfl rfl
    have hsteps : 1 + s.msgLen + 1 + (8 * s.msgLen + 1) = s.embedSteps := by omega
    refine ⟨t, ⟨by rw [ht], by rw [ht], s.embedStart, hissue, hsteps ▸ hscan.trans hrun⟩,
      ?_, hdata, hterm, hother, ?_⟩
    · rw [ht, ← hp]
      exact ⟨_, _, _, _, _, _, rfl⟩
    · rw [hport, htr, List.reverse_append, List.reverse_append, List.append_assoc, List.append_assoc]
      rfl
  all_goals
    rw [he] at herr
    cases herr

end embed

end Sys2Proof.Machine

namespace Sys2Proof.Proofs.Embed

open Sys2Proof Sys2Proof.Machine

/-- Settles O42: the failing end. -/
theorem failedEmbedLeavesNoTrace : Obligations.FailedEmbedLeavesNoTrace := by
  intro s e hi hp he
  obtain ⟨si, hend⟩ := embed_fails hp he
  exact ⟨_, hend.execTimes_eq, rfl⟩

end Sys2Proof.Proofs.Embed
end

section
/-! The read pass of `EXTRACT` (43_extract R137) as a run, and what a whole `EXTRACT` leaves: its outcomes,
the bytes it emits, and the accesses it makes (43_extract R146, R148, R151). -/

namespace Sys2Proof.Machine

/-! ### Groups -/

/-- The first `j` bits of group `k`, first bit highest (43_extract R138). -/
def State.groupBits (s : State) (k j : Nat) : Byte :=
  (List.range j).foldl (fun g t => pushBit g (s.lsbAt (8 * k + t))) 0

theorem groupBits_succ (s : State) (k j : Nat) :
    s.groupBits k (j + 1) = pushBit (s.groupBits k j) (s.lsbAt (8 * k + j)) := by
  rw [State.groupBits, List.range_succ, List.foldl_concat, State.groupBits]

theorem groupBits_eight (s : State) (k : Nat) : s.groupBits k 8 = s.groupVal k := rfl

/-- Bit `i` of a group in progress is the bit read `i` places before its newest one. -/
theorem getLsbD_groupBits (s : State) (k j : Nat) {i : Nat} (hi : i < 8) :
    (s.groupBits k j).getLsbD i = (decide (i < j) && s.lsbAt (8 * k + (j - 1 - i))) := by
  induction j generalizing i with
  | zero => simp [State.groupBits]
  | succ j ih =>
    rw [groupBits_succ, pushBit_eq_shiftConcat, BitVec.getLsbD_shiftConcat]
    cases i with
    | zero => simp
    | succ i =>
      have hsub : j + 1 - 1 - (i + 1) = j - 1 - i := by omega
      simp only [hi, decide_true, Bool.true_and, Nat.succ_ne_zero, if_false, Nat.add_sub_cancel,
        ih (Nat.lt_of_succ_lt hi), Nat.add_lt_add_iff_right]
      rw [← hsub, Nat.add_sub_cancel]

/-- The first bit of a group is bit 7 of its value (30_encoding R79). -/
theorem topBit_groupVal (s : State) (k : Nat) : topBit (s.groupVal k) = s.lsbAt (8 * k) := by
  rw [← groupBits_eight, topBit, getLsbD_groupBits s k 8 (by decide)]
  rfl

/-- Reading back a byte gives it (43_extract R138). -/
theorem groupVal_eq_of_bits {s : State} {k : Nat} {v : Byte}
    (h : ∀ t, t < 8 → s.lsbAt (8 * k + t) = bitFromTop v t) : s.groupVal k = v := by
  have hfold : s.groupVal k = (List.range 8).foldl (fun g t => pushBit g (bitFromTop v t)) 0 :=
    List.foldl_ext _ _ _ fun g t ht => by rw [h t (List.mem_range.mp ht)]
  rw [hfold, foldl_pushBit_bitFromTop v (Nat.le_refl 8), Nat.sub_self, BitVec.ushiftRight_zero]

theorem firstTerminator_eq_some_iff {s : State} {m k : Nat} : s.firstTerminator m = some k ↔
    s.lsbAt (8 * k) = true ∧ k < m ∧ ∀ j, j < k → s.lsbAt (8 * j) = false := by
  rw [State.firstTerminator, List.find?_range_eq_some, List.mem_range]
  simp only [Bool.not_eq_true']

theorem firstTerminator_eq_none_iff {s : State} {m : Nat} : s.firstTerminator m = none ↔
    ∀ k, k < m → s.lsbAt (8 * k) = false := by
  rw [State.firstTerminator, List.find?_range_eq_none]
  simp only [Bool.not_eq_true']

/-! ### The accesses and the emitted bytes -/

theorem readTrace_succ (s : State) (m k : Nat) : s.readTrace (m + 1) k = s.readTrace m k ++
    .read .pix (s.addr m) :: (if m % 8 = 7 ∧ m / 8 < k then [.write .mout (m / 8)] else []) := by
  rw [State.readTrace, List.range_succ, List.flatMap_append, List.flatMap_singleton, State.readTrace]

/-- A group counts as emitted in the record only once its last bit is read. -/
theorem readTrace_congr (s : State) {m k l : Nat} (h : ∀ p, p < m → p % 8 = 7 → (p / 8 < k ↔ p / 8 < l)) :
    s.readTrace m k = s.readTrace m l := by
  refine List.flatMap_congr fun p hp => ?_
  by_cases h7 : p % 8 = 7
  · simp only [h p (List.mem_range.mp hp) h7]
  · simp only [h7, false_and]

/-- `MOUT` with the first `k` groups emitted (43_extract R140). -/
def State.emitted (s : State) (k : Nat) : Memory :=
  (List.range k).foldl (fun m i => m.put i (s.groupVal i)) s.moutMem

theorem emitted_succ (s : State) (k : Nat) : s.emitted (k + 1) = (s.emitted k).put k (s.groupVal k) := by
  rw [State.emitted, List.range_succ, List.foldl_concat, State.emitted]

theorem byteAt_emitted (s : State) (k i : Nat) : { s with moutMem := s.emitted k }.byteAt .mout i =
    if i < k then s.groupVal i else s.byteAt .mout i := by
  induction k with
  | zero => rfl
  | succ k ih =>
    have hput : { s with moutMem := s.emitted (k + 1) } =
        { s with moutMem := s.emitted k }.putByte .mout k (s.groupVal k) := by
      rw [emitted_succ]
      rfl
    rw [hput]
    by_cases hik : i = k
    · rw [hik, byteAt_putByte_same, if_pos k.lt_succ_self]
    · have hiff : i < k + 1 ↔ i < k := by omega
      rw [byteAt_putByte_ne _ _ _ hik, ih]
      simp only [hiff]

/-! ### The read pass -/

/-- The start of the read pass (44_command R157). -/
def State.readStart (s : State) : State :=
  { beginIssue s with pos := 0, g := 0x00, gc := 0, n := 0, phase := .xRead }

/-- The read pass from its start `s` after `p` cells, no terminator among the groups completed. -/
def State.readCells (s : State) (p : Nat) : State :=
  { s with
    pos := p, g := s.groupBits (p / 8) (p % 8), gc := p % 8, n := p / 8
    moutMem := s.emitted (p / 8), port := (s.readTrace p (p / 8)).reverse ++ s.port }

theorem readCells_byteAt_mout (s : State) (p i : Nat) : (s.readCells p).byteAt .mout i =
    if i < p / 8 then s.groupVal i else s.byteAt .mout i :=
  byteAt_emitted s (p / 8) i

theorem push_readCells (s : State) (p : Nat) :
    pushBit (s.readCells p).g ((s.readCells p).lsbAt p) = s.groupBits (p / 8) (p % 8 + 1) := by
  rw [groupBits_succ, Nat.div_add_mod]
  rfl

section readPass

variable {s : State} {p : Nat}

theorem push_readCells_of_last (h7 : p % 8 = 7) :
    pushBit (s.readCells p).g ((s.readCells p).lsbAt p) = s.groupVal (p / 8) := by
  rw [push_readCells, h7, ← groupBits_eight]

theorem readCells_succ_of_inside (h7 : p % 8 < 7) : (s.readCells p).afterBit = s.readCells (p + 1) := by
  have hdiv : (p + 1) / 8 = p / 8 := by omega
  have hmod : (p + 1) % 8 = p % 8 + 1 := by omega
  have htrace : (s.readTrace (p + 1) (p / 8)).reverse =
      .read .pix (s.addr p) :: (s.readTrace p (p / 8)).reverse := by
    rw [readTrace_succ, if_neg (by omega), List.reverse_append]
    rfl
  conv_rhs => rw [State.readCells, hdiv, hmod, ← push_readCells, htrace]
  rfl

theorem readCells_succ_of_last (h7 : p % 8 = 7) : (s.readCells p).afterEmit = s.readCells (p + 1) := by
  have hdiv : (p + 1) / 8 = p / 8 + 1 := by omega
  have hmod : (p + 1) % 8 = 0 := by omega
  have htrace : (s.readTrace (p + 1) (p / 8 + 1)).reverse =
      .write .mout (p / 8) :: .read .pix (s.addr p) :: (s.readTrace p (p / 8)).reverse := by
    rw [readTrace_succ, if_pos ⟨h7, Nat.lt_succ_self _⟩,
      readTrace_congr s (k := p / 8 + 1) (l := p / 8) fun q hq hq7 => by omega, List.reverse_append]
    rfl
  conv_rhs => rw [State.readCells, hdiv, hmod, emitted_succ, ← push_readCells_of_last h7, htrace]
  rfl

variable (hok : s.cfg.ok = true) (hp : s.phase = .xRead) (hpix : s.cells ≤ s.cfg.pixCells)
include hok hp hpix

/-- 43_extract R137: a cell that does not complete the terminator's group. -/
theorem exec_extract_readCells (hlt : p < s.cells) (h0 : p % 8 = 7 → s.lsbAt (8 * (p / 8)) = false) :
    exec .extract (s.readCells p) = .next (s.readCells (p + 1)) := by
  have hne : (s.readCells p).pos ≠ (s.readCells p).cells := Nat.ne_of_lt hlt
  have ha : (s.readCells p).addr (s.readCells p).pos < (s.readCells p).cfg.pixCells :=
    Nat.lt_of_lt_of_le (addr_lt_cells hlt) hpix
  rw [exec_extract_of_xRead (s := s.readCells p) hp]
  by_cases h7 : p % 8 < 7
  · rw [extractRead_bit hne ha h7, readCells_succ_of_inside h7]
  · have h7' : p % 8 = 7 := by omega
    have hn : p / 8 < s.cfg.moutBytes := by
      have := pixCells_div_le_moutBytes_of_ok hok
      omega
    have hb := (topBit_groupVal s (p / 8)).trans (h0 h7')
    rw [← push_readCells_of_last h7'] at hb
    rw [extractRead_emit hne ha h7 hb hn, readCells_succ_of_last h7']

/-- The cells before the terminator's last one, one step each. -/
theorem runsFor_read {m : Nat} (hm : m ≤ s.cells) (h0 : ∀ k, k < m / 8 → s.lsbAt (8 * k) = false) :
    RunsFor .extract m (s.readCells 0) (s.readCells m) := by
  refine runsFor_of_steps fun p hlt => ⟨?_, ?_⟩
  · show s.phase ≠ .ready
    simp [hp]
  · exact exec_extract_readCells hok hp hpix (Nat.lt_of_lt_of_le hlt hm) fun h7 => h0 _ (by omega)

omit hok in
/-- 43_extract R141: the cell that completes the terminator's group. -/
theorem exec_extract_terminate (hlt : p < s.cells) (h7 : p % 8 = 7) (h1 : s.lsbAt (8 * (p / 8)) = true) :
    exec .extract (s.readCells p) = .next (s.readCells p).afterTerminate := by
  have hne : (s.readCells p).pos ≠ (s.readCells p).cells := Nat.ne_of_lt hlt
  have ha : (s.readCells p).addr (s.readCells p).pos < (s.readCells p).cfg.pixCells :=
    Nat.lt_of_lt_of_le (addr_lt_cells hlt) hpix
  have hg : ¬ (s.readCells p).gc < 7 := by
    show ¬ p % 8 < 7
    omega
  have hb := (topBit_groupVal s (p / 8)).trans h1
  rw [← push_readCells_of_last h7] at hb
  rw [exec_extract_of_xRead (s := s.readCells p) hp, extractRead_terminate hne ha hg hb]

end readPass

/-! ### The whole command -/

section extract

variable {s : State}

theorem exec_extract_out_of_range (hp : s.phase = .ready) (hgt : s.cells > s.cfg.pixCells) :
    exec .extract s = .next { s with done := true, err := .operandRange } := by
  rw [exec_extract_of_ready hp, extractIssue_of_buffer_exceeds hgt, raiseError_beginIssue_of_ready _ hp]

theorem exec_extract_issue (hp : s.phase = .ready) (hpix : s.cells ≤ s.cfg.pixCells) :
    exec .extract s = .next s.readStart := by
  rw [exec_extract_of_ready hp, extractIssue_of_fits hpix, State.readStart]

variable (hi : s.Inv) (hp : s.phase = .ready) (hpix : s.cells ≤ s.cfg.pixCells)
include hi hp hpix

/-- 43_extract R142: with no terminator, the pass ends exhausted. -/
theorem extract_fails (h0 : ∀ k, k < s.groups → s.lsbAt (8 * k) = false) :
    EndsAfter .extract (s.cells + 1) s (s.readStart.readCells s.cells).afterExhausted := by
  obtain ⟨hok, -⟩ := hi
  refine ⟨rfl, rfl, s.readStart, exec_extract_issue hp hpix,
    (runsFor_read (s := s.readStart) hok rfl hpix (Nat.le_refl _) h0).trans
      (runsFor_one (nofun : Phase.xRead ≠ .ready) ?_)⟩
  exact (exec_extract_of_xRead rfl).trans (extractRead_exhausted rfl)

/-- 43_extract R141: the pass ends with the last cell of the first group whose first bit is 1. -/
theorem extract_succeeds {k : Nat} (hk : k < s.groups) (h1 : s.lsbAt (8 * k) = true)
    (h0 : ∀ j, j < k → s.lsbAt (8 * j) = false) :
    EndsAfter .extract (8 * (k + 1)) s (s.readStart.readCells (8 * k + 7)).afterTerminate := by
  obtain ⟨hok, -⟩ := hi
  have hdiv : (8 * k + 7) / 8 = k := by omega
  have hlt : 8 * k + 7 < s.cells := by
    rw [State.groups] at hk
    omega
  refine ⟨rfl, rfl, s.readStart, exec_extract_issue hp hpix,
    (runsFor_read (s := s.readStart) hok rfl hpix (Nat.le_of_lt hlt) (by rw [hdiv]; exact h0)).trans
      (runsFor_one (nofun : Phase.xRead ≠ .ready) ?_)⟩
  exact exec_extract_terminate (s := s.readStart) rfl hpix hlt (by omega) (by rw [hdiv]; exact h1)

end extract

/-- The record at the end of a successful read pass: the terminator's group is read, not written. -/
theorem afterTerminate_port (s : State) (k : Nat) : (s.readCells (8 * k + 7)).afterTerminate.port =
    (s.readTrace (8 * (k + 1)) k).reverse ++ s.port := by
  have hdiv : (8 * k + 7) / 8 = k := by omega
  have hnot : ¬ ((8 * k + 7) % 8 = 7 ∧ (8 * k + 7) / 8 < k) := by omega
  rw [Nat.mul_succ, readTrace_succ, if_neg hnot, List.reverse_append]
  show .read .pix (s.addr (8 * k + 7)) :: ((s.readTrace (8 * k + 7) ((8 * k + 7) / 8)).reverse ++ s.port) = _
  rw [hdiv]
  rfl

/-- The group index of a buffer that fits `PIX` fits `OLEN`. -/
theorem toNat_ofNat_of_lt_groups {s : State} {k : Nat} (hi : s.Inv) (hpix : s.cells ≤ s.cfg.pixCells)
    (hk : k < s.groups) : (BitVec.ofNat 32 k).toNat = k := by
  obtain ⟨hok, -⟩ := hi
  have hlt := pixCells_lt_of_ok hok
  rw [State.groups] at hk
  rw [BitVec.toNat_ofNat, Nat.mod_eq_of_lt (by omega)]

/-- The outcomes of `EXTRACT`, with what 43_extract R146 and R151 give for each. -/
theorem extract_outcomes {s : State} (hi : s.Inv) (hp : s.phase = .ready) :
    (s.cells > s.cfg.pixCells ∧ s.extractSteps = 0 ∧ s.extractTrace = [] ∧
      EndsAfter .extract s.extractSteps s { s with done := true, err := .operandRange }) ∨
    (s.cells ≤ s.cfg.pixCells ∧ s.extractSteps = s.cells + 1 ∧
      s.extractTrace = s.readTrace s.cells s.groups ∧
      EndsAfter .extract s.extractSteps s (s.readStart.readCells s.cells).afterExhausted) ∨
    ∃ k, s.cells ≤ s.cfg.pixCells ∧ k < s.groups ∧ (∀ j, j < k → s.lsbAt (8 * j) = false) ∧
      s.extractSteps = 8 * (k + 1) ∧ s.extractTrace = s.readTrace (8 * (k + 1)) k ∧
      EndsAfter .extract s.extractSteps s (s.readStart.readCells (8 * k + 7)).afterTerminate := by
  by_cases hgt : s.cells > s.cfg.pixCells
  · have hn : s.extractSteps = 0 := if_pos hgt
    exact .inl ⟨hgt, hn, if_pos hgt, hp, rfl, _, exec_extract_out_of_range hp hgt,
      hn ▸ runsFor_zero _ _⟩
  · have hpix := Nat.not_lt.mp hgt
    cases hk : s.firstTerminator s.groups with
    | none =>
      have hn : s.extractSteps = s.cells + 1 := by rw [State.extractSteps, if_neg hgt, hk]
      have htr : s.extractTrace = s.readTrace s.cells s.groups := by
        rw [State.extractTrace, if_neg hgt, hk]
      exact .inr (.inl ⟨hpix, hn, htr, hn ▸ extract_fails hi hp hpix (firstTerminator_eq_none_iff.mp hk)⟩)
    | some k =>
      obtain ⟨h1, hlt, h0⟩ := firstTerminator_eq_some_iff.mp hk
      have hn : s.extractSteps = 8 * (k + 1) := by rw [State.extractSteps, if_neg hgt, hk]
      have htr : s.extractTrace = s.readTrace (8 * (k + 1)) k := by
        rw [State.extractTrace, if_neg hgt, hk]
      exact .inr (.inr ⟨k, hpix, hlt, h0, hn, htr, hn ▸ extract_succeeds hi hp hpix hlt h1 h0⟩)

end Sys2Proof.Machine

namespace Sys2Proof.Proofs.Extract

open Sys2Proof Sys2Proof.Machine

/-- Settles O14: the byte a step writes is a group whose first bit is 0, and so is every byte of the message
a whole command recovers. -/
theorem extractedBytesBelow128 : Obligations.ExtractedBytesBelow128 := by
  refine ⟨fun s t a h hchange => ?step, fun s t i hi hp h herr hlt => ?whole⟩
  case step =>
    obtain ⟨hmem, hport⟩ | ⟨hb, hport⟩ := exec_extract_mout_cases h
    · obtain hne | heq := hchange
      · exact absurd (byteAt_mout_congr hmem a) hne
      · exact absurd heq (hport a _)
    · have ha : a = s.n := by
        obtain hne | heq := hchange
        · exact Classical.byContradiction fun ha => hne (exec_extract_byteAt_mout h ha)
        · rw [hport] at heq
          cases heq
          rfl
      rw [ha]
      exact topBit_eq_false_iff.mp hb
  case whole =>
    obtain ⟨-, -, -, hend⟩ | ⟨-, -, -, hend⟩ | ⟨k, hpix, hk, h0, -, -, hend⟩ := extract_outcomes hi hp
    · rw [hend.eq_of_execTimes h] at herr
      cases herr
    · rw [hend.eq_of_execTimes h] at herr
      cases herr
    · have hdiv : (8 * k + 7) / 8 = k := by omega
      rw [hend.eq_of_execTimes h] at hlt ⊢
      have holen : (s.readStart.readCells (8 * k + 7)).afterTerminate.olen.toNat = k :=
        (congrArg (fun n => (BitVec.ofNat 32 n).toNat) hdiv).trans (toNat_ofNat_of_lt_groups hi hpix hk)
      rw [holen] at hlt
      have hbyte : (s.readStart.readCells (8 * k + 7)).afterTerminate.byteAt .mout i = s.groupVal i :=
        (readCells_byteAt_mout s.readStart _ i).trans (if_pos (hdiv.symm ▸ hlt))
      rw [hbyte, ← topBit_eq_false_iff, topBit_groupVal]
      exact h0 i hlt

/-- Settles O44: the three ends of the command, and the bytes emitted before each. -/
theorem extractBigStep : Obligations.ExtractBigStep := by
  intro s hi hp
  refine ⟨fun hgt => ?range, fun hpix h0 => ?exhausted, fun k hpix hk h1 h0 => ?found⟩
  case range => exact exec_extract_out_of_range hp hgt
  case exhausted =>
    refine ⟨_, (extract_fails hi hp hpix h0).execTimes_eq, fun i hlt => ?_, fun i hge => ?_, ?_⟩
    · exact (readCells_byteAt_mout s.readStart _ i).trans (if_pos hlt)
    · exact (readCells_byteAt_mout s.readStart _ i).trans (if_neg (Nat.not_lt.mpr hge))
    · rw [hp]
      rfl
  case found =>
    have hdiv : (8 * k + 7) / 8 = k := by omega
    refine ⟨_, (extract_succeeds hi hp hpix hk h1 h0).execTimes_eq, ?_, fun i hlt => ?_, fun i hge => ?_,
      ?_⟩
    · exact (congrArg (fun n => (BitVec.ofNat 32 n).toNat) hdiv).trans
        (toNat_ofNat_of_lt_groups hi hpix hk)
    · exact (readCells_byteAt_mout s.readStart _ i).trans (if_pos (hdiv.symm ▸ hlt))
    · exact (readCells_byteAt_mout s.readStart _ i).trans (if_neg (hdiv.symm ▸ Nat.not_lt.mpr hge))
    · rw [hp]
      rfl

/-- Settles O47: the record of each end of the command. -/
theorem extractAccessOrder : Obligations.ExtractAccessOrder := by
  intro s t hi hp h
  obtain ⟨-, -, htr, hend⟩ | ⟨-, -, htr, hend⟩ | ⟨k, -, -, -, -, htr, hend⟩ := extract_outcomes hi hp <;>
    rw [hend.eq_of_execTimes h, htr]
  · rfl
  · rfl
  · exact afterTerminate_port s.readStart k

end Sys2Proof.Proofs.Extract
end

section
/-! What follows of whole commands: their length, the accesses of `EMBED`, what a successful `EMBED` leaves,
`EMBED` again, and `EXTRACT` after it (42_embed R124, R128 to R131, 44_command R166); and the empty
Traversal (41_traversal R111). -/

namespace Sys2Proof.Machine

/-- 42_embed R127, R131: with operands that fit and a message below 128 there is no error. -/
theorem embedError_eq_none {s : State} (hfits : s.embedFits) (hplain : s.plainBelow s.msgLen) :
    s.embedError = none ∧ s.embedSteps = 9 * s.msgLen + 3 := by
  obtain ⟨hpix, hmin, h0, hc⟩ := hfits
  obtain ⟨hrange, -⟩ | ⟨-, -, hz, -⟩ | ⟨-, -, -, hgt, -⟩ | ⟨i, -, hb, hlt, -⟩ | ⟨-, -, herr, hn, -⟩ :=
    embed_outcomes s
  · omega
  · exact absurd hz h0
  · omega
  · rw [hplain i hlt] at hb
    cases hb
  · exact ⟨herr, hn⟩

theorem embedFits_of_embedError_none {s : State} (h : s.embedError = none) :
    s.embedFits ∧ s.plainBelow s.msgLen := by
  obtain ⟨-, herr, -⟩ | ⟨-, -, -, herr, -⟩ | ⟨-, -, -, -, herr, -⟩ | ⟨-, -, -, -, -, herr, -⟩ |
    ⟨hfits, hplain, -⟩ := embed_outcomes s
  case inr.inr.inr.inr => exact ⟨hfits, hplain⟩
  all_goals
    rw [h] at herr
    cases herr

theorem embedSteps_le (s : State) : s.embedSteps ≤ 9 * s.msgLen + 3 := by
  obtain ⟨-, -, hn, -⟩ | ⟨-, -, -, -, hn, -⟩ | ⟨-, -, -, -, -, hn, -⟩ | ⟨i, -, -, hlt, -, -, hn, -⟩ |
    ⟨-, -, -, hn, -⟩ := embed_outcomes s <;> omega

/-- Every `EMBED` ends, with an error or without (42_embed R127). -/
theorem embed_ends {s : State} (hi : s.Inv) (hp : s.phase = .ready) :
    ∃ t, EndsAfter .embed s.embedSteps s t := by
  cases he : s.embedError with
  | none =>
    obtain ⟨t, hend, -⟩ := embed_succeeds hi hp he
    exact ⟨t, hend⟩
  | some e =>
    obtain ⟨si, hend⟩ := embed_fails hp he
    exact ⟨_, hend⟩

theorem embedError_ne_ok (s : State) : s.embedError ≠ some .ok := by
  obtain ⟨-, herr, -⟩ | ⟨-, -, -, herr, -⟩ | ⟨-, -, -, -, herr, -⟩ | ⟨-, -, -, -, -, herr, -⟩ |
    ⟨-, -, herr, -⟩ := embed_outcomes s <;> rw [herr] <;> nofun

/-- An `EMBED` that ends with OK had no error. -/
theorem embedError_eq_none_of_ok {s t : State} (hp : s.phase = .ready)
    (h : execTimes .embed (s.embedSteps + 1) s = .next t) (herr : t.err = .ok) : s.embedError = none := by
  cases he : s.embedError with
  | none => rfl
  | some e =>
    obtain ⟨si, hend⟩ := embed_fails hp he
    rw [hend.eq_of_execTimes h] at herr
    exact absurd (he.trans (congrArg some herr)) (embedError_ne_ok s)

/-- Every `EXTRACT` ends, within one step per cell and one more (43_extract R151). -/
theorem extract_ends {s : State} (hi : s.Inv) (hp : s.phase = .ready) :
    (∃ t, EndsAfter .extract s.extractSteps s t) ∧ s.extractSteps ≤ s.cells + 1 := by
  obtain ⟨-, hn, -, hend⟩ | ⟨-, hn, -, hend⟩ | ⟨k, -, hk, -, hn, -, hend⟩ := extract_outcomes hi hp
  · exact ⟨⟨_, hend⟩, by omega⟩
  · exact ⟨⟨_, hend⟩, by omega⟩
  · rw [State.groups] at hk
    exact ⟨⟨_, hend⟩, by omega⟩

theorem statusWord_of_done {s : State} (hp : s.phase = .ready) (hd : s.done = true)
    (he : s.err = .ok) : s.statusWord = 0x00000002#32 := by
  rw [State.statusWord, hp, hd, he]
  rfl

section embedded

variable {s t : State} (h : Embedded s t)
include h

/-- An `EMBED` with the same operands writes the cells the same bits again. -/
theorem Embedded.byteAt_of_again {u : State} (hu : Embedded t u) (a : Nat) :
    u.byteAt .pix a = t.byteAt .pix a := by
  obtain ⟨⟨_, _, _, _, _, _, rfl⟩, hdata, hterm, -, -⟩ := h
  by_cases ha : ∃ p, p ≤ s.bitLen ∧ a = s.addr p
  · obtain ⟨p, hle, rfl⟩ := ha
    obtain hlt | rfl := Nat.lt_or_eq_of_le hle
    · refine (hu.data p hlt).trans ?_
      have hw := hdata p hlt
      exact (congrArg (fun v => withLsb v (s.bit p)) hw).trans ((withLsb_withLsb _ _).trans hw.symm)
    · refine hu.terminator.trans ?_
      rw [forceLsb_eq_withLsb] at hterm ⊢
      exact (congrArg (fun v => withLsb v true) hterm).trans ((withLsb_withLsb _ _).trans hterm.symm)
  · exact hu.other a fun p hle hap => ha ⟨p, hle, hap⟩

/-- The addresses, the cells and the sizes of a block whose dimensions are as the `EMBED` left them. -/
theorem Embedded.sameBuffer {u : State} (hcfg : u.cfg = t.cfg) (hheight : u.height = t.height)
    (hwidth : u.width = t.width) (hchans : u.channels = t.channels) :
    u.cfg = s.cfg ∧ u.addr = s.addr ∧ u.cells = s.cells := by
  obtain ⟨⟨_, _, _, _, _, _, rfl⟩, -⟩ := h
  refine ⟨hcfg, funext fun p => ?_, ?_⟩
  · rw [State.addr, State.rows, State.cols, State.chans, hheight, hwidth, hchans]
    rfl
  · rw [State.cells, State.rows, State.cols, State.chans, hheight, hwidth, hchans]
    rfl

theorem Embedded.lsbAt_data {p : Nat} (hlt : p < s.bitLen) : lsbOf (t.byteAt .pix (s.addr p)) = s.bit p := by
  rw [h.data p hlt, lsbOf_withLsb]

theorem Embedded.lsbAt_terminator : lsbOf (t.byteAt .pix (s.addr s.bitLen)) = true := by
  rw [h.terminator, forceLsb_eq_withLsb, lsbOf_withLsb]

end embedded

/-- Bit `t` of message byte `i` (40_serializer R91). -/
theorem bit_of_byte (s : State) (i : Nat) {t : Nat} (ht : t < 8) :
    s.bit (8 * i + t) = bitFromTop (s.byteAt .min i) t := by
  have hdiv : (8 * i + t) / 8 = i := by omega
  have hmod : (8 * i + t) % 8 = t := by omega
  rw [State.bit, hdiv, hmod]

/-- 41_traversal R111: with a dimension 0 there are no cells. -/
theorem cells_eq_zero {s : State} (h : s.height = 0 ∨ s.width = 0 ∨ s.channels = 0) : s.cells = 0 := by
  rw [State.cells, State.rows, State.cols, State.chans]
  obtain h | h | h := h <;> simp [h]

end Sys2Proof.Machine

namespace Sys2Proof.Proofs.Command

open Sys2Proof Sys2Proof.Machine

/-- Settles O41: both commands end after their counted steps. -/
theorem everyCommandEnds : Obligations.EveryCommandEnds := by
  intro s hi hp
  obtain ⟨t, hembed⟩ := embed_ends hi hp
  obtain ⟨⟨u, hextract⟩, hle⟩ := extract_ends hi hp
  have ht := hembed.execTimes_eq
  have hu := hextract.execTimes_eq
  refine ⟨⟨⟨t, ht, ?_⟩, fun k => hembed.busy_before, embedSteps_le s⟩, ⟨u, hu, ?_⟩,
    fun k => hextract.busy_before, hle⟩
  · obtain ⟨hphase, hdone, -⟩ := hembed
    exact ⟨hphase, hdone⟩
  · obtain ⟨hphase, hdone, -⟩ := hextract
    exact ⟨hphase, hdone⟩

/-- Settles O50: with no cells the capacity check fails, and the read pass is exhausted at once. -/
theorem emptyTraversalFails : Obligations.EmptyTraversalFails := by
  intro s hp hdim
  have h0 := cells_eq_zero hdim
  have hpix : s.cells ≤ s.cfg.pixCells := h0 ▸ Nat.zero_le _
  refine ⟨fun hm => ?empty, fun hm hmin => ?tooLong, ?extract⟩
  case empty =>
    rw [execTimes_succ (exec_embed_issue hp hpix (hm ▸ Nat.zero_le _)),
      execTimes_succ (exec_embed_of_eCheck rfl), embedCheck_of_empty (s := s.embedStart) hm]
    exact congrArg _ (raiseError_beginIssue_of_ready _ hp)
  case tooLong =>
    have hc : 8 * s.msgLen + 8 > s.cells := by omega
    rw [execTimes_succ (exec_embed_issue hp hpix hmin), execTimes_succ (exec_embed_of_eCheck rfl),
      embedCheck_of_tooLong (s := s.embedStart) hm hc]
    exact congrArg _ (raiseError_beginIssue_of_ready _ hp)
  case extract =>
    have hend : exec .extract s.readStart = .next s.readStart.afterExhausted :=
      (exec_extract_of_xRead rfl).trans (extractRead_exhausted (s := s.readStart) h0.symm)
    rw [execTimes_succ (exec_extract_issue hp hpix), execTimes_succ hend, hp]
    rfl

end Sys2Proof.Proofs.Command

namespace Sys2Proof.Proofs.Embed

open Sys2Proof Sys2Proof.Machine

/-- Settles O43: the operands fit and the message is below 128, so the command succeeds. -/
theorem embedWritesFrame : Obligations.EmbedWritesFrame := by
  intro s hi hp hpix hmin h0 hc hplain
  obtain ⟨herr, hn⟩ := embedError_eq_none ⟨hpix, hmin, h0, hc⟩
    fun i hlt => topBit_eq_false_iff.mpr (hplain i hlt)
  obtain ⟨t, hend, hframe, hdata, hterm, hother, -⟩ := embed_succeeds hi hp herr
  rw [hn] at hend
  have ht := hend.execTimes_eq
  obtain ⟨hphase, hdone, -⟩ := hend
  obtain ⟨_, _, _, _, _, _, rfl⟩ := hframe
  exact ⟨_, ht, statusWord_of_done hphase hdone rfl, hdata, hterm, hother, rfl⟩

/-- Settles O46: the record of each end of the command. -/
theorem embedAccessOrder : Obligations.EmbedAccessOrder := by
  intro s t hi hp h
  cases he : s.embedError with
  | none =>
    obtain ⟨u, hend, hdone⟩ := embed_succeeds hi hp he
    rw [hend.eq_of_execTimes h, hdone.port]
  | some e =>
    obtain ⟨si, hend⟩ := embed_fails hp he
    rw [hend.eq_of_execTimes h]

/-- Settles O48: the first command leaves every operand, so the second has the same outcome. -/
theorem embedTwiceLeavesSameBuffer : Obligations.EmbedTwiceLeavesSameBuffer := by
  intro s t hi hp h
  have hit := execTimes_inv hi h
  cases he : s.embedError with
  | none =>
    obtain ⟨t', hend, hdone⟩ := embed_succeeds hi hp he
    obtain rfl := hend.eq_of_execTimes h
    obtain ⟨hpt, -⟩ := hend
    have het : t.embedError = none := by
      obtain ⟨⟨_, _, _, _, _, _, rfl⟩, -⟩ := hdone
      exact he
    obtain ⟨u, hend', hdone'⟩ := embed_succeeds hit hpt het
    refine ⟨u, hend'.execTimes_eq, ?_, hdone.byteAt_of_again hdone'⟩
    obtain ⟨⟨_, _, _, _, _, _, rfl⟩, -⟩ := hdone'
    obtain ⟨⟨_, _, _, _, _, _, rfl⟩, -⟩ := hdone
    rfl
  | some e =>
    obtain ⟨si, hend⟩ := embed_fails hp he
    have ht := hend.eq_of_execTimes h
    obtain ⟨si', hend'⟩ := embed_fails (s := t) (by rw [ht]; exact hp) (by rw [ht]; exact he)
    exact ⟨_, hend'.execTimes_eq, by rw [ht], fun _ => rfl⟩

/-- Settles O45: the LSBs of the first `8·MLEN` cells are the bits of the message, none of whose bytes looks
like the terminator, and that of the next cell is 1. -/
theorem embedExtractRoundTrip : Obligations.EmbedExtractRoundTrip := by
  intro s t t' hi hp h herr hi' hp' hcfg hpix hheight hwidth hchans
  have he := embedError_eq_none_of_ok hp h herr
  obtain ⟨⟨hbuf, -, -, hc⟩, hplain⟩ := embedFits_of_embedError_none he
  obtain ⟨t, hend, hdone⟩ := embed_succeeds hi hp he
  obtain rfl := hend.eq_of_execTimes h
  obtain ⟨hcfg', haddr, hcells⟩ := hdone.sameBuffer hcfg hheight hwidth hchans
  have hlsb (p : Nat) : t'.lsbAt p = lsbOf (t.byteAt .pix (s.addr p)) := by
    rw [State.lsbAt, haddr, hpix]
  have hdata (i j : Nat) (hi : i < s.msgLen) (hj : j < 8) :
      t'.lsbAt (8 * i + j) = bitFromTop (s.byteAt .min i) j := by
    have hlt : 8 * i + j < s.bitLen := by
      rw [State.bitLen]
      omega
    rw [hlsb, hdone.lsbAt_data hlt, bit_of_byte s i hj]
  have hgroup : s.msgLen < t'.groups := by
    rw [State.groups, hcells]
    omega
  obtain ⟨-, -, hfound⟩ := Extract.extractBigStep t' hi' hp'
  obtain ⟨u, hu, holen, hmout, -, hframe⟩ := hfound s.msgLen (by rw [hcells, hcfg']; exact hbuf) hgroup
    ((hlsb _).trans hdone.lsbAt_terminator)
    fun j hj => (hdata j 0 hj (by decide)).trans ((bitFromTop_eq_getLsbD _ 0).trans (hplain j hj))
  refine ⟨u, hu, by rw [hframe]; exact hp', by rw [hframe], by rw [hframe],
    BitVec.eq_of_toNat_eq holen, fun i hlt => ?_⟩
  rw [hmout i hlt, groupVal_eq_of_bits fun j hj => hdata i j hlt hj]

end Sys2Proof.Proofs.Embed
end

section
/-! The internal registers (10_state R30 to R34, R42): what of them each phase still uses, and a command run
from any other values of them. -/

namespace Sys2Proof.Machine

/-- Values of the internal registers but `PHASE`. -/
structure Internals where
  pos : Nat
  si : Nat
  sr : Byte
  sc : Nat
  g : Byte
  gc : Nat
  n : Nat

/-- The state with these values in its internal registers. -/
def State.withInternals (s : State) (r : Internals) : State :=
  { s with pos := r.pos, si := r.si, sr := r.sr, sc := r.sc, g := r.g, gc := r.gc, n := r.n }

/-- The values agree with the state's where the phase still uses them: the position and the serializer in
the write pass, the index in the validation pass, the position and the group in the read pass. -/
def Internals.agree (r : Internals) (s : State) : Prop :=
  match s.phase with
  | .ready => True
  | .eCheck => True
  | .eScan => r.si = s.si
  | .eWrite => r.pos = s.pos ∧ r.sc = s.sc ∧ (s.sc ≠ 0 → r.sr = s.sr)
  | .xRead => r.pos = s.pos ∧ r.g = s.g ∧ r.gc = s.gc ∧ r.n = s.n

section agree

variable {r : Internals} {s : State}

theorem agree_of_ready (hp : s.phase = .ready) : r.agree s := by
  rw [Internals.agree, hp]
  trivial

theorem agree_of_eCheck (hp : s.phase = .eCheck) : r.agree s := by
  rw [Internals.agree, hp]
  trivial

theorem agree_iff_of_eScan (hp : s.phase = .eScan) : r.agree s ↔ r.si = s.si := by
  rw [Internals.agree, hp]

theorem agree_iff_of_eWrite (hp : s.phase = .eWrite) :
    r.agree s ↔ r.pos = s.pos ∧ r.sc = s.sc ∧ (s.sc ≠ 0 → r.sr = s.sr) := by
  rw [Internals.agree, hp]

theorem agree_iff_of_xRead (hp : s.phase = .xRead) :
    r.agree s ↔ r.pos = s.pos ∧ r.g = s.g ∧ r.gc = s.gc ∧ r.n = s.n := by
  rw [Internals.agree, hp]

/-- A step of `i` from `s` to `t` is matched from `s` with other internal registers. -/
def Internals.matches (r : Internals) (i : Instr) (s t : State) : Prop :=
  ∃ r' : Internals, exec i (s.withInternals r) = .next (t.withInternals r') ∧ r'.agree t

/-- The issue of a command uses no internal register (44_command R155 to R157). -/
theorem matches_issue {i : Instr} {t : State} (hp : s.phase = .ready) (h : exec i s = .next t) :
    r.matches i s t := by
  cases i with
  | embed =>
    rw [exec_embed_of_ready hp] at h
    cases h
    refine ⟨r, (exec_embed_of_ready (s := s.withInternals r) hp).trans (congrArg _ ?_), ?_⟩
    · by_cases hpix : s.cells ≤ s.cfg.pixCells
      · by_cases hmin : s.msgLen ≤ s.cfg.minBytes
        · rw [embedIssue_of_fits hpix hmin, embedIssue_of_fits (s := s.withInternals r) hpix hmin]
          rfl
        · have hgt := Nat.not_le.mp hmin
          rw [embedIssue_of_message_exceeds hgt,
            embedIssue_of_message_exceeds (s := s.withInternals r) hgt]
          rfl
      · have hgt := Nat.not_le.mp hpix
        rw [embedIssue_of_buffer_exceeds hgt, embedIssue_of_buffer_exceeds (s := s.withInternals r) hgt]
        rfl
    · obtain he | he := embedIssue_eq s <;> rw [he]
      · exact agree_of_ready rfl
      · exact agree_of_eCheck rfl
  | extract =>
    rw [exec_extract_of_ready hp] at h
    cases h
    by_cases hpix : s.cells ≤ s.cfg.pixCells
    · refine ⟨⟨0, r.si, r.sr, r.sc, 0, 0, 0⟩, ?_, ?_⟩
      · rw [exec_extract_of_ready (s := s.withInternals r) hp, extractIssue_of_fits hpix,
          extractIssue_of_fits (s := s.withInternals r) hpix]
        rfl
      · rw [extractIssue_of_fits hpix]
        exact (agree_iff_of_xRead rfl).mpr ⟨rfl, rfl, rfl, rfl⟩
    · have hgt := Nat.not_le.mp hpix
      refine ⟨r, ?_, ?_⟩
      · rw [exec_extract_of_ready (s := s.withInternals r) hp, extractIssue_of_buffer_exceeds hgt,
          extractIssue_of_buffer_exceeds (s := s.withInternals r) hgt]
        rfl
      · rw [extractIssue_of_buffer_exceeds hgt]
        exact agree_of_ready rfl

/-- A command attempted in a phase of the other does nothing, with any registers (log entry 10). -/
theorem matches_self {i : Instr} (hr : r.agree s) (h : exec i (s.withInternals r) = .next (s.withInternals r)) :
    r.matches i s s := ⟨r, h, hr⟩

theorem matches_embedCheck (hp : s.phase = .eCheck) : r.matches .embed s (embedCheck s) := by
  have hexec := exec_embed_of_eCheck (s := s.withInternals r) hp
  by_cases h0 : s.msgLen = 0
  · rw [embedCheck_of_empty (s := s.withInternals r) h0] at hexec
    rw [embedCheck_of_empty h0]
    exact ⟨r, hexec, agree_of_ready rfl⟩
  · by_cases hc : 8 * s.msgLen + 8 ≤ s.cells
    · rw [embedCheck_of_fits (s := s.withInternals r) h0 hc] at hexec
      rw [embedCheck_of_fits h0 hc]
      exact ⟨{ r with si := 0 }, hexec, (agree_iff_of_eScan rfl).mpr rfl⟩
    · have hgt := Nat.not_le.mp hc
      rw [embedCheck_of_tooLong (s := s.withInternals r) h0 hgt] at hexec
      rw [embedCheck_of_tooLong h0 hgt]
      exact ⟨r, hexec, agree_of_ready rfl⟩

theorem matches_embedScan {t : State} (hp : s.phase = .eScan) (hr : r.agree s)
    (h : embedScan s = .next t) : r.matches .embed s t := by
  have hexec := exec_embed_of_eScan (s := s.withInternals r) hp
  obtain ⟨pos, si, sr, sc, g, gc, n⟩ := r
  obtain rfl : si = s.si := (agree_iff_of_eScan hp).mp hr
  obtain ⟨he, rfl⟩ | ⟨hne, hlt, hb, rfl⟩ | ⟨hne, hlt, hb, rfl⟩ := embedScan_cases h
  · refine ⟨⟨0, s.si, sr, 0, g, gc, n⟩, hexec.trans (embedScan_done he), ?_⟩
    exact (agree_iff_of_eWrite rfl).mpr ⟨rfl, rfl, fun h0 => absurd rfl h0⟩
  · have hu := embedScan_byte (s := s.withInternals ⟨pos, s.si, sr, sc, g, gc, n⟩) hne hlt
    exact ⟨⟨pos, s.si, sr, sc, g, gc, n⟩, hexec.trans (hu.trans (congrArg _ (if_pos hb))),
      agree_of_ready rfl⟩
  · have hu := embedScan_byte (s := s.withInternals ⟨pos, s.si, sr, sc, g, gc, n⟩) hne hlt
    exact ⟨⟨pos, s.si + 1, sr, sc, g, gc, n⟩,
      hexec.trans (hu.trans (congrArg _ (if_neg (Bool.eq_false_iff.mp hb)))),
      (agree_iff_of_eScan (by exact hp)).mpr rfl⟩

/-- Where `SC` is 0 the delivery loads `SR` anew, so its old value is not used (40_serializer R93). -/
theorem afterData_withInternals {sr : Byte} (si : Nat) (g : Byte) (gc n : Nat)
    (hsr : s.sc ≠ 0 → sr = s.sr) : (s.withInternals ⟨s.pos, si, sr, s.sc, g, gc, n⟩).afterData =
      s.afterData.withInternals ⟨s.pos + 1, si, s.afterData.sr, s.afterData.sc, g, gc, n⟩ := by
  have hsrAt : (s.withInternals ⟨s.pos, si, sr, s.sc, g, gc, n⟩).srAt
      (s.withInternals ⟨s.pos, si, sr, s.sc, g, gc, n⟩).pos = s.srAt s.pos := by
    by_cases h0 : s.sc = 0
    · exact (if_pos h0).trans (if_pos h0).symm
    · exact (if_neg h0).trans ((hsr h0).trans (if_neg h0).symm)
  rw [State.afterData, State.serialized, hsrAt]
  rfl

theorem matches_embedWrite {t : State} (hp : s.phase = .eWrite) (hr : r.agree s)
    (h : embedWrite s = .next t) : r.matches .embed s t := by
  have hexec := exec_embed_of_eWrite (s := s.withInternals r) hp
  obtain ⟨pos, si, sr, sc, g, gc, n⟩ := r
  obtain ⟨hpos, hsc, hsr⟩ := (agree_iff_of_eWrite hp).mp hr
  obtain rfl : pos = s.pos := hpos
  obtain rfl : sc = s.sc := hsc
  obtain ⟨hlt, ha, hm, rfl⟩ | ⟨hge, ha, rfl⟩ := embedWrite_cases h
  · have hafter := afterData_withInternals si g gc n hsr
    have hu := embedWrite_data (s := s.withInternals ⟨s.pos, si, sr, s.sc, g, gc, n⟩) hlt ha hm
    rw [hafter] at hu
    exact ⟨_, hexec.trans hu, (agree_iff_of_eWrite (s := s.afterData) hp).mpr ⟨rfl, rfl, fun _ => rfl⟩⟩
  · exact ⟨⟨s.bitLen + 1, si, sr, s.sc, g, gc, n⟩, hexec.trans (embedWrite_terminator hge ha),
      agree_of_ready rfl⟩

theorem matches_extractRead {t : State} (hp : s.phase = .xRead) (hr : r.agree s)
    (h : extractRead s = .next t) : r.matches .extract s t := by
  have hexec := exec_extract_of_xRead (s := s.withInternals r) hp
  obtain ⟨pos, si, sr, sc, g, gc, n⟩ := r
  obtain ⟨hpos, hg, hgc, hn⟩ := (agree_iff_of_xRead hp).mp hr
  obtain rfl : pos = s.pos := hpos
  obtain rfl : g = s.g := hg
  obtain rfl : gc = s.gc := hgc
  obtain rfl : n = s.n := hn
  obtain ⟨he, rfl⟩ | ⟨hne, ha, hlt, rfl⟩ | ⟨hne, ha, hge, hb, rfl⟩ | ⟨hne, ha, hge, hb, hmout, rfl⟩ :=
    extractRead_cases h
  · exact ⟨⟨s.pos, si, sr, sc, s.g, s.gc, s.n⟩, hexec.trans (extractRead_exhausted he), agree_of_ready rfl⟩
  · exact ⟨⟨s.pos + 1, si, sr, sc, _, s.gc + 1, s.n⟩, hexec.trans (extractRead_bit hne ha hlt),
      (agree_iff_of_xRead (s := s.afterBit) hp).mpr ⟨rfl, rfl, rfl, rfl⟩⟩
  · exact ⟨⟨s.pos + 1, si, sr, sc, s.g, s.gc, s.n⟩, hexec.trans (extractRead_terminate hne ha hge hb),
      agree_of_ready rfl⟩
  · exact ⟨⟨s.pos + 1, si, sr, sc, 0, 0, s.n + 1⟩, hexec.trans (extractRead_emit hne ha hge hb hmout),
      (agree_iff_of_xRead (s := s.afterEmit) hp).mpr ⟨rfl, rfl, rfl, rfl⟩⟩

/-- One step with other internal registers: a simulation between runs that agree where the phase looks. -/
theorem matches_exec {i : Instr} {t : State} (hr : r.agree s) (h : exec i s = .next t) :
    r.matches i s t := by
  cases i with
  | embed =>
    obtain ⟨hp, -⟩ | ⟨hp, rfl⟩ | ⟨hp, h⟩ | ⟨hp, h⟩ | ⟨hp, rfl⟩ := execEmbed_cases h
    · exact matches_issue hp h
    · exact matches_embedCheck hp
    · exact matches_embedScan hp hr h
    · exact matches_embedWrite hp hr h
    · refine matches_self hr ?_
      have hp' : (t.withInternals r).phase = .xRead := hp
      rw [exec, execEmbed, hp']
  | extract =>
    obtain ⟨hp, -⟩ | ⟨hp, rfl⟩ | ⟨hp, h⟩ := execExtract_cases h
    · exact matches_issue hp h
    · refine matches_self hr ?_
      have hp' : (t.withInternals r).phase = t.phase := rfl
      rw [exec, execExtract, hp']
      obtain hp | hp | hp := hp <;> rw [hp]
    · exact matches_extractRead hp hr h

theorem execTimes_withInternals {i : Instr} {k : Nat} {t : State} (hr : r.agree s)
    (h : execTimes i k s = .next t) :
    ∃ r', execTimes i k (s.withInternals r) = .next (t.withInternals r') := by
  induction k generalizing s r with
  | zero =>
    cases h
    exact ⟨r, rfl⟩
  | succ k ih =>
    rw [execTimes] at h
    split at h
    · obtain ⟨r', hstep, hr'⟩ := matches_exec hr ‹_›
      obtain ⟨r'', hrun⟩ := ih hr' h
      exact ⟨r'', (execTimes_succ hstep).trans hrun⟩
    · cases h
    · cases h

end agree

end Sys2Proof.Machine

namespace Sys2Proof.Proofs.Command

open Sys2Proof Sys2Proof.Machine

/-- Settles O49: while READY no phase looks at an internal register, and the simulation keeps agreement. -/
theorem internalRegistersDoNotMatter : Obligations.InternalRegistersDoNotMatter := by
  intro i s t k pos si sc gc n sr g hp h
  obtain ⟨r, hu⟩ := execTimes_withInternals (r := ⟨pos, si, sr, sc, g, gc, n⟩) (agree_of_ready hp) h
  exact ⟨_, hu, rfl⟩

end Sys2Proof.Proofs.Command
end
